-- ==== Sys2Proof/Word.lean ====
section
/-! DEFINITION. The bit-vector types of the block: the 64-bit lane and operand word, the byte, the 256-bit
command descriptor (spec/00_scope.md R5, R7; spec/30_encoding.md R51). -/

namespace Sys2Proof

/-- A 64-bit unsigned value: one lane, or one operand word of a descriptor (R5 `LANE_BITS`, R7, R51). -/
abbrev Word := BitVec 64

/-- An 8-bit unsigned value: one byte of caller memory or of the scratch buffer (R7). -/
abbrev Byte := BitVec 8

/-- A command descriptor, `W0` in its low 64 bits and `W3` in its high 64 bits (R51). -/
abbrev Descriptor := BitVec 256

end Sys2Proof
end

