-- ==== Sys2Proof/Config.lean ====
section
/-! DEFINITION. What is fixed for one machine and is not state: the default of the open parameter `AW` (R6), what an
unlisted memory byte reads as, and the one source of free values. The sizes of R5 are the types' own: 25 lanes of 64 bits,
a block of 136 bytes, a digest of 32. -/

namespace Sys2Proof

/-- The default of the open parameter `AW`, the width of an address and of `len` (R6). A state carries its own value
in `Platform.aw`; this one is only what `State.reset` and `decodeTableWord` take. Log entry 1. -/
abbrev Config.addrBits : Nat := 64

/-- What a byte of caller memory that no cell lists reads as. DESIGN CHOICE, unsafe: log entry 7. -/
abbrev Config.unlistedByte : Byte := 0

/-- FREE VALUES. `freeWord n p` is the free value of draw number `n` at position `p`. It has no body: nothing in Lean can
evaluate it. It stands for every value the spec calls unspecified (R13, R17, R19, R25, R121, R151). Log entry 8. -/
opaque Config.freeWord : Nat → Nat → Word

/-- The free byte of draw `n` at position `p`. -/
abbrev Config.freeByte (n p : Nat) : Byte := (Config.freeWord n p).setWidth 8

end Sys2Proof
end

