-- ==== Sys2Proof/Syntax.lean ====
section
/-! DEFINITION. The command set (spec/30_encoding.md R50, R52, R53): one constructor per row of
spec/opcode_table.json. -/

namespace Sys2Proof

/-- The four commands, with their operands as the descriptor gives them (R52, R53). -/
inductive Instr where
  /-- `HASH in_ptr, len, out_ptr` (R110). -/
  | hash (inPtr len outPtr : Word)
  /-- `PERMUTE` (R89). -/
  | permute
  /-- `WRLANE i, v` (R120). -/
  | wrlane (i : BitVec 5) (v : Word)
  /-- `RDLANE i` (R121). -/
  | rdlane (i : BitVec 5)
deriving DecidableEq, Repr

/-- The command's mnemonic (R54). -/
def Instr.mnemonic : Instr → String
  | .hash _ _ _ => "HASH"
  | .permute => "PERMUTE"
  | .wrlane _ _ => "WRLANE"
  | .rdlane _ => "RDLANE"

end Sys2Proof
end

