-- ==== Sys2Proof/WellFormed.lean ====
section
/-! DEFINITION. The operand constraints of the opcode map (spec/30_encoding.md R53, R54): which terms of `Instr` are
commands at all, for a given address width `AW`. -/

namespace Sys2Proof

/-- The bits `63:aw` of an operand word are zero (R53, R54). Vacuous for `aw >= 64`. -/
def fitsAddr (aw : Nat) (w : Word) : Bool := decide (w.toNat < 2 ^ aw)

/-- A lane index is `0 .. 24` (R52, R54 `idx <= 24`). -/
def laneOk (i : BitVec 5) : Bool := decide (i.toNat < 25)

/-- A command whose operands the opcode map admits (R54). -/
def Instr.wf (aw : Nat) : Instr → Bool
  | .hash inPtr len outPtr => fitsAddr aw inPtr && fitsAddr aw len && fitsAddr aw outPtr
  | .permute => true
  | .wrlane i _ => laneOk i
  | .rdlane i => laneOk i

end Sys2Proof
end

