-- ==== Sys2Proof/Decode.lean ====
section
/-! DEFINITION. The command encoding (spec/30_encoding.md R51 to R56, R62): the fields of a descriptor, the decoder,
total on all 256-bit values and naming why a descriptor is reserved, the encoder, and the opcode map of R54 as data. -/

namespace Sys2Proof

/-- Why a descriptor is reserved (R55). -/
inductive Reserved where
  /-- `op = 0x00` or `op >= 0x05`. -/
  | opcode
  /-- `rsv != 0`. -/
  | reservedBits
  /-- `idx != 0` in `HASH` or `PERMUTE`, or `idx >= 25` in `WRLANE` or `RDLANE`. -/
  | laneIndex
  /-- A must-be-zero operand word that is not zero. -/
  | operandWord
  /-- Operand bits above `AW` that are not zero. -/
  | addressBits
deriving DecidableEq, Repr

/-- Operand word `Wn` of a descriptor (R51). -/
def descWord (d : Descriptor) (n : Nat) : Word := d.extractLsb' (64 * n) 64

/-- Header field `op`, bits 7:0 (R51). -/
def opField (d : Descriptor) : BitVec 8 := d.extractLsb' 0 8

/-- Header field `idx`, bits 12:8 (R51). -/
def idxField (d : Descriptor) : BitVec 5 := d.extractLsb' 8 5

/-- Header field `rsv`, bits 63:13 (R51). -/
def rsvField (d : Descriptor) : BitVec 51 := d.extractLsb' 13 51

/-- Decoding with address width `aw` (R54, R55, R62). It reads no state but the platform's fixed `AW`. -/
def decode (aw : Nat) (d : Descriptor) : Except Reserved Instr :=
  if rsvField d ≠ 0 then .error .reservedBits
  else if opField d = 0x01 then
    if idxField d ≠ 0 then .error .laneIndex
    else if fitsAddr aw (descWord d 1) && fitsAddr aw (descWord d 2) && fitsAddr aw (descWord d 3) then
      .ok (.hash (descWord d 1) (descWord d 2) (descWord d 3))
    else .error .addressBits
  else if opField d = 0x02 then
    if idxField d ≠ 0 then .error .laneIndex
    else if descWord d 1 ≠ 0 ∨ descWord d 2 ≠ 0 ∨ descWord d 3 ≠ 0 then .error .operandWord
    else .ok .permute
  else if opField d = 0x03 then
    if laneOk (idxField d) = false then .error .laneIndex
    else if descWord d 2 ≠ 0 ∨ descWord d 3 ≠ 0 then .error .operandWord
    else .ok (.wrlane (idxField d) (descWord d 1))
  else if opField d = 0x04 then
    if laneOk (idxField d) = false then .error .laneIndex
    else if descWord d 1 ≠ 0 ∨ descWord d 2 ≠ 0 ∨ descWord d 3 ≠ 0 then .error .operandWord
    else .ok (.rdlane (idxField d))
  else .error .opcode

/-! ### The encoder -/

/-- The opcode of a command (R52, R54). -/
def opcodeOf : Instr → BitVec 8
  | .hash _ _ _ => 0x01
  | .permute => 0x02
  | .wrlane _ _ => 0x03
  | .rdlane _ => 0x04

/-- A header `W0` with `rsv = 0` (R51). -/
def header (op : BitVec 8) (idx : BitVec 5) : Word := (0 : BitVec 51) ++ idx ++ op

/-- A descriptor from its four words (R51). -/
def descriptor (w0 w1 w2 w3 : Word) : Descriptor := w3 ++ w2 ++ w1 ++ w0

/-- The descriptor of a command (R52). -/
def encode : Instr → Descriptor
  | .hash inPtr len outPtr => descriptor (header 0x01 0) inPtr len outPtr
  | .permute => descriptor (header 0x02 0) 0 0 0
  | .wrlane i v => descriptor (header 0x03 i) v 0 0
  | .rdlane i => descriptor (header 0x04 i) 0 0 0

/-! ### The opcode map of R54 as data -/

/-- The last column of R54. -/
inductive RowConstraint where
  /-- Bits `63:AW` of `W1`, `W2`, `W3` are zero. -/
  | addressBits
  /-- No constraint. -/
  | unconstrained
  /-- `idx <= 24`. -/
  | laneIndex
deriving DecidableEq, Repr

/-- One row of the opcode map (R54). -/
structure OpRow where
  mnemonic : String
  pattern : Descriptor
  mask : Descriptor
  constraint : RowConstraint
deriving DecidableEq, Repr

/-- The opcode map, complete (R54). -/
def opcodeMap : List OpRow :=
  [ ⟨"HASH", 0x01, 0xFFFFFFFFFFFFFFFF, .addressBits⟩,
    ⟨"PERMUTE", 0x02, 0xFFFFFFFFFFFFFFFFFFFFFFFFFFFFFFFFFFFFFFFFFFFFFFFFFFFFFFFFFFFFFFFF, .unconstrained⟩,
    ⟨"WRLANE", 0x03, 0xFFFFFFFFFFFFFFFFFFFFFFFFFFFFFFFF0000000000000000FFFFFFFFFFFFE0FF, .laneIndex⟩,
    ⟨"RDLANE", 0x04, 0xFFFFFFFFFFFFFFFFFFFFFFFFFFFFFFFFFFFFFFFFFFFFFFFFFFFFFFFFFFFFE0FF, .laneIndex⟩ ]

/-- A row's constraint on a descriptor (R54). -/
def RowConstraint.admits (aw : Nat) (d : Descriptor) : RowConstraint → Bool
  | .addressBits => fitsAddr aw (descWord d 1) && fitsAddr aw (descWord d 2) && fitsAddr aw (descWord d 3)
  | .unconstrained => true
  | .laneIndex => laneOk (idxField d)

/-- A descriptor `d` selects a row when `d and mask = match` and the row's constraint holds (R54). -/
def OpRow.selects (aw : Nat) (d : Descriptor) (r : OpRow) : Bool :=
  decide (d &&& r.mask = r.pattern) && r.constraint.admits aw d

/-- The mnemonics of the rows a descriptor selects (R54). -/
def selectedRows (aw : Nat) (d : Descriptor) : List String :=
  (opcodeMap.filter (OpRow.selects aw d)).map OpRow.mnemonic

/-! ### The host's view of the decoder -/

/-- The command read from a table word of `nbits` bits: a descriptor is a bit vector, so its bit `n` is the table's bit `n`
and the bits above `nbits` are zero (R51). Default address width. Log entry 16. -/
def decodeTableWord (nbits w : Nat) : Option Instr :=
  (decode Config.addrBits (BitVec.ofNat 256 (w % 2 ^ nbits))).toOption

end Sys2Proof
end

