-- ==== Sys2Proof/Machine/State.lean ====
section
/-! DEFINITION. What the machine holds, as plain data: the platform parameters (R6), the engine instances with their lanes,
scratch buffer, sequencing values and busy condition (R25, R139), the caller's memory (R30), the channels (R58), the
reasons a step can stop, and the state after reset (R25, R150 to R153). -/

namespace Sys2Proof.Machine

/-! ### The platform: the open parameters of R6 -/

/-- What stands behind a region of the address space (R36). -/
inductive MemKind where
  /-- Ordinary memory: a read has no side effect and returns the byte last written (R36). -/
  | ordinary
  /-- Locations with read or write side effects, outside the contract (R36, R45 (g)). -/
  | device
deriving DecidableEq, Repr

/-- A range of addresses and what the platform admits there: the data behind `Readable(a)` and `Writable(a)` (R6, R37). -/
structure Region where
  base : Nat
  size : Nat
  readable : Bool
  writable : Bool
  kind : MemKind
deriving DecidableEq, Repr

/-- The open parameters `AW`, `Readable`, `Writable` of R6. No command and no event changes them. -/
structure Platform where
  /-- `AW`, the width in bits of an address and of `len`. -/
  aw : Nat
  /-- The address map (R37). -/
  regions : List Region
deriving DecidableEq, Repr

/-! ### One engine instance -/

/-- The 25 lanes, index `x + 5*y` (R10, R11). -/
abbrev Lanes := Vector Word 25

/-- The 136-byte scratch buffer `SCR` (R17). -/
abbrev Scratch := Vector Byte 136

/-- The sequencing state of R19. No command reads it. Between commands it is unspecified. -/
structure Sequencing where
  rnd : BitVec 5
  t : BitVec 5
  x : BitVec 3
  y : BitVec 3
  cur : Word
  rem : Word
  r : BitVec 8
deriving DecidableEq, Repr

/-- One engine instance (R25, R139). -/
structure Engine where
  /-- `S[0 .. 24]` (R10). -/
  lanes : Lanes
  /-- Which lanes are specified (R13, R25, R120 "a lane that was unspecified becomes specified"). The stored bits of
  a lane that is not specified are shown to nobody. -/
  specified : Vector Bool 25
  /-- `SCR[0 .. 135]` (R17). -/
  scr : Scratch
  /-- The sequencing values (R19). -/
  seq : Sequencing
  /-- The command between its issue and its response, if there is one (R24, R58). -/
  inFlight : Option Instr
deriving DecidableEq, Repr

/-- `busy`: a command is in flight (R24). -/
abbrev Engine.busy (e : Engine) : Bool := e.inFlight.isSome

/-- An engine instance after reset: idle (R151). Lanes, scratch buffer and sequencing values are unspecified (R25). The zeros
stored here are DESIGN CHOICE, unsafe: log entries 4, 5, 6. -/
def Engine.reset : Engine where
  lanes := Vector.replicate 25 0
  specified := Vector.replicate 25 false
  scr := Vector.replicate 136 0
  seq := ⟨0, 0, 0, 0, 0, 0, 0⟩
  inFlight := none

/-! ### The caller's memory and the channels -/

/-- Caller memory: address and byte pairs, addresses strictly rising, no byte equal to `Config.unlistedByte` (R30). -/
abbrev Memory := List Host.Cell

/-- One single-byte access on an instance's memory channel (R35, R58 (c)). -/
inductive Access where
  | read (engine : Nat) (addr : Nat)
  | write (engine : Nat) (addr : Nat) (v : Byte)
deriving DecidableEq, Repr

/-- One response: the instance that gives it and its data, which only `RDLANE` has (R57). -/
structure Response where
  engine : Nat
  data : Option Word
deriving DecidableEq, Repr

/-- What the world outside the block does next: the caller on a command channel (R58), another agent of the platform on
the memory (R45 (e), R158), the reset (R151). Log entries 9, 10, 17. -/
inductive Event where
  /-- The caller issues a descriptor to an instance and the command runs to its response. -/
  | command (engine : Nat) (d : Descriptor)
  /-- The caller issues a descriptor, and the command stays in flight while further events happen (R58 (a), (b)). -/
  | issue (engine : Nat) (d : Descriptor)
  /-- The command in flight on an instance runs to its response before the events that follow. Without this event it does so
  after the last event (R58 (e), R163). -/
  | finish (engine : Nat)
  /-- An agent other than a command stores a byte. -/
  | agentWrite (addr : Nat) (v : Byte)
  /-- An agent other than a command loads a byte. -/
  | agentRead (addr : Nat)
  /-- Reset of every instance (R150, R151). -/
  | reset
deriving DecidableEq, Repr

/-! ### Why a step can stop -/

/-- Faults. The block itself raises none (R130). -/
inductive Fault where
  /-- Raised by an `agentRead` or `agentWrite` event at an address outside the `AW`-bit space of R30. Safe. -/
  | noSuchAddress (addr : Nat)
deriving DecidableEq, Repr

/-- The buffer-contract violations of R132. -/
inductive Violation where
  /-- V1 and V3: an input byte is not readable. -/
  | inputNotReadable
  /-- V2: an output byte is not writable. -/
  | outputNotWritable
  /-- V4: a buffer runs past the top of the address space. -/
  | pastTop
  /-- V5: another agent touches a buffer of a running command. -/
  | sharedBuffer
  /-- V6: the input and output buffers overlap. -/
  | overlap
  /-- V7: a buffer lies in memory with access side effects. -/
  | notOrdinary
deriving DecidableEq, Repr

/-- Refusals (R133): the situation has no meaning. -/
inductive Refusal where
  /-- Raised by `exec` for an instruction that has no meaning yet. Safe. -/
  | notModelled (mnemonic : String)
  /-- V8, raised at issue, and by a meaning whose operands no descriptor encodes (R55). Safe. -/
  | reserved (why : Reserved)
  /-- V1 to V7, raised by `HASH` at issue and at execution, and by agent events (R109, R132). Safe. -/
  | contractViolation (v : Violation)
  /-- V9: issue to an instance that has not responded (R58 (b)). Safe. -/
  | busy
  /-- Raised when a command is addressed to an instance the platform does not have. Safe. -/
  | noSuchInstance
  /-- Raised by an agent event on a device location, whose behaviour the spec does not give (R36). Safe. -/
  | deviceAccess
deriving DecidableEq, Repr

/-! ### The machine -/

/-- The whole machine. -/
structure State where
  /-- `AW`, `Readable`, `Writable` (R6). -/
  plat : Platform
  /-- The engine instances: `NUM_ENGINES` is the length of the list (R6, R139). -/
  engines : List Engine
  /-- The instance whose command is being executed, or was last (model's own, log entry 11). -/
  active : Nat
  /-- The caller's memory `M` (R30). -/
  mem : Memory
  /-- The accesses made on the memory channels so far, oldest first (R34, R58 (c); log entry 12). -/
  bus : List Access
  /-- The responses given so far, oldest first (R57; log entry 12). -/
  responses : List Response
  /-- How many free draws have been made (model's own, log entry 8). -/
  draws : Nat
  /-- What the world outside does next, first event first (model's own, log entry 10). -/
  pending : List Event
deriving DecidableEq, Repr

/-- The default platform: `AW = 64`, all of the address space ordinary, readable and writable. DESIGN CHOICE, log entry 2. -/
def Platform.default : Platform where
  aw := Config.addrBits
  regions := [⟨0, 2 ^ Config.addrBits, true, true, .ordinary⟩]

/-- `n` instances on a platform, right after reset: every instance idle, nothing issued (R25, R150, R151). -/
def State.resetOn (plat : Platform) (n : Nat) : State where
  plat := plat
  engines := List.replicate n Engine.reset
  active := 0
  mem := []
  bus := []
  responses := []
  draws := 0
  pending := []

/-- The machine right after reset, with the default parameters of R6: one instance, `AW = 64`. Log entries 1, 2, 3. -/
def State.reset : State := State.resetOn Platform.default 1

end Sys2Proof.Machine
end

