-- ==== Sys2Proof/Machine/Ops.lean ====
section
/-! DEFINITION. The named operations over the machine's state that the meanings share: bytes of memory (R30, R36), the
memory channel (R34, R35), the addressed instance, the response (R57), free draws (R13, R121). There is no operation for
taking an exception or returning from one: the block has neither (R130, R135, R136). -/

namespace Sys2Proof.Machine

/-! ### Memory -/

/-- `M[a]` (R30). -/
def Memory.read : Memory → Nat → Byte
  | [], _ => Config.unlistedByte
  | (k, b) :: m, a => if k = a then b else Memory.read m a

/-- A list that begins with the byte `v` at `a`, unless `a` reads as `v` without being listed. -/
def Memory.cell (a : Nat) (v : Byte) (m : Memory) : Memory :=
  if v = Config.unlistedByte then m else (a, v) :: m

/-- `M[a] <- v`, keeping the canonical form (R36). -/
def Memory.write : Memory → Nat → Byte → Memory
  | [], a, v => Memory.cell a v []
  | (k, b) :: m, a, v =>
    if a < k then Memory.cell a v ((k, b) :: m)
    else if a = k then Memory.cell a v m
    else (k, b) :: Memory.write m a v

/-- `M[a], M[a+1], … <- bs` (R35). -/
def Memory.writeBytes : Memory → Nat → List Byte → Memory
  | m, _, [] => m
  | m, a, b :: bs => Memory.writeBytes (m.write a b) (a + 1) bs

/-- `M[a], …, M[a+n-1]` (R21). -/
def Memory.bytes (m : Memory) (a n : Nat) : List Byte := (List.range n).map fun j => m.read (a + j)

/-- The canonical form: addresses strictly rising, no byte equal to what an unlisted address reads as. -/
abbrev Memory.wf (m : Memory) : Prop :=
  m.Pairwise (fun c d => c.1 < d.1) ∧ ∀ c ∈ m, c.2 ≠ Config.unlistedByte

/-! ### Updates of the state, one field each -/

/-- Replaces the caller's memory. -/
def State.withMem (s : State) (m : Memory) : State := { s with mem := m }

/-- Appends accesses to the memory channel's record. -/
def State.logBus (s : State) (xs : List Access) : State := { s with bus := s.bus ++ xs }

/-- One more free draw has been made. -/
def State.drawn (s : State) : State := { s with draws := s.draws + 1 }

/-- Addresses a command to instance `k`. -/
def State.withActive (s : State) (k : Nat) : State := { s with active := k }

/-- Replaces instance `k`, if there is one. -/
def State.setEngineAt (s : State) (k : Nat) (e : Engine) : State := { s with engines := s.engines.set k e }

/-- What is still to happen. -/
def State.withPending (s : State) (evs : List Event) : State := { s with pending := evs }

/-! ### The addressed instance -/

/-- The instance the command is executed on. -/
def State.engine? (s : State) : Option Engine := s.engines[s.active]?

/-- Replaces the instance the command is executed on. -/
def State.setEngine (s : State) (e : Engine) : State := s.setEngineAt s.active e

/-- Runs a command's meaning on the addressed instance. -/
def onEngine (s : State) (f : Engine → Host.Outcome State Fault Refusal) : Host.Outcome State Fault Refusal :=
  match s.engine? with
  | some e => f e
  | none => .refused .noSuchInstance

/-- `respond(v)`, `respond()`: the command's one response, after all its effects. It clears `busy` (R57, R58 (b)). `e` is
the addressed instance as the command leaves it. -/
def State.respond (s : State) (e : Engine) (data : Option Word) : State :=
  { s with
    engines := s.engines.set s.active { e with inFlight := none }
    responses := s.responses ++ [⟨s.active, data⟩] }

/-! ### Single-byte accesses on the memory channel -/

/-- `MemRead(a, n)`: `n` single-byte reads of `M[a], …, M[a+n-1]` in that order (R8, R35). -/
def memRead (a n : Nat) (s : State) : Vector Byte n × State :=
  (Vector.ofFn fun j : Fin n => s.mem.read (a + j.val),
    s.logBus ((List.range n).map fun j => .read s.active (a + j)))

/-- One single-byte write (R35). -/
def memWriteByte (a : Nat) (v : Byte) (s : State) : State :=
  (s.withMem (s.mem.write a v)).logBus [.write s.active a v]

/-- `MemWrite(a, n, v)`: single-byte writes of `bs` to `M[a], M[a+1], …` in that order (R8, R35). -/
def memWrite : Nat → List Byte → State → State
  | _, [], s => s
  | a, b :: bs, s => memWrite (a + 1) bs (memWriteByte a b s)

/-! ### Free draws -/

/-- 25 free lanes of draw `n`. -/
def freeLanes (n : Nat) : Lanes := Vector.ofFn fun i : Fin 25 => Config.freeWord n i.val

/-- 136 free scratch bytes of draw `n`. -/
def freeScratch (n : Nat) : Scratch := Vector.ofFn fun k : Fin 136 => Config.freeByte n (25 + k.val)

/-- Free sequencing values of draw `n`. -/
def freeSequencing (n : Nat) : Sequencing where
  rnd := (Config.freeWord n 161).setWidth 5
  t := (Config.freeWord n 162).setWidth 5
  x := (Config.freeWord n 163).setWidth 3
  y := (Config.freeWord n 164).setWidth 3
  cur := Config.freeWord n 165
  rem := Config.freeWord n 166
  r := (Config.freeWord n 167).setWidth 8

/-- `len` free bytes of draw `n`. -/
def freeBytes (n len : Nat) : List Byte := (List.range len).map fun j => Config.freeByte n j

/-- Every lane unspecified, with free bits of draw `n` (R13, R89). -/
def Engine.unspecifyLanes (n : Nat) (e : Engine) : Engine :=
  { e with lanes := freeLanes n, specified := Vector.replicate 25 false }

end Sys2Proof.Machine
end

