-- ==== Sys2Proof/Machine/Operands.lean ====
section
/-! DEFINITION. The operand forms: a lane index (R53, R120, R121), a buffer given by address and length (R21, R22, R53), and
the caller's contract for the two buffers of `HASH` (R45, R109, R132, R142). -/

namespace Sys2Proof.Machine

/-! ### Lane index -/

/-- The lane an index operand names, if it names one (R52, R55). -/
def laneIndex? (i : BitVec 5) : Option (Fin 25) :=
  if h : i.toNat < 25 then some ⟨i.toNat, h⟩ else none

/-- Runs a meaning on the lane an index operand names: `idx >= 25` is reserved and refused (R55, R120, R121). -/
def onLane (i : BitVec 5) (f : Fin 25 → Host.Outcome State Fault Refusal) : Host.Outcome State Fault Refusal :=
  match laneIndex? i with
  | some j => f j
  | none => .refused (.reserved .laneIndex)

/-! ### Buffers -/

/-- `len` bytes of caller memory from `base`, computed without truncation (R21, R37). -/
structure Buffer where
  base : Nat
  len : Nat
deriving DecidableEq, Repr

/-- The input buffer of a `HASH` (R21). -/
def inputBuffer (inPtr len : Word) : Buffer := ⟨inPtr.toNat, len.toNat⟩

/-- The output buffer of a `HASH` (R22). -/
def outputBuffer (outPtr : Word) : Buffer := ⟨outPtr.toNat, 32⟩

/-- The byte at `a` belongs to the buffer. -/
def Buffer.contains (b : Buffer) (a : Nat) : Bool := decide (b.base ≤ a ∧ a < b.base + b.len)

/-- The two buffers have no byte in common. An empty buffer has no byte (R45 (f), R46). -/
def Buffer.disjoint (b c : Buffer) : Bool :=
  decide (b.len = 0 ∨ c.len = 0 ∨ b.base + b.len ≤ c.base ∨ c.base + c.len ≤ b.base)

/-- `p` holds at each of the `n` addresses from `a` on. -/
def allBytes (p : Nat → Bool) : Nat → Nat → Bool
  | _, 0 => true
  | a, n + 1 => p a && allBytes p (a + 1) n

/-! ### The platform's predicates (R6, R36, R37) -/

def Region.contains (r : Region) (a : Nat) : Bool := decide (r.base ≤ a ∧ a < r.base + r.size)

/-- `Readable(a)`. -/
def Platform.readableAt (p : Platform) (a : Nat) : Bool := p.regions.any fun r => r.contains a && r.readable

/-- `Writable(a)`. -/
def Platform.writableAt (p : Platform) (a : Nat) : Bool := p.regions.any fun r => r.contains a && r.writable

/-- No location with access side effects stands at `a` (R36). -/
def Platform.ordinaryAt (p : Platform) (a : Nat) : Bool :=
  p.regions.all fun r => !(r.contains a && decide (r.kind = .device))

/-- The address exists: it is below `2^AW` (R30). -/
def Platform.inSpace (p : Platform) (a : Nat) : Bool := decide (a < 2 ^ p.aw)

/-! ### Commands in flight on the other instances -/

/-- The buffers of the `HASH` in flight on an instance. -/
def Engine.buffers? (e : Engine) : Option (Buffer × Buffer) :=
  match e.inFlight with
  | some (.hash inPtr len outPtr) => some (inputBuffer inPtr len, outputBuffer outPtr)
  | _ => none

/-- The buffers of every `HASH` in flight on the instances of a list, numbered from `j`, other than instance `k`. -/
def buffersExcept (k : Nat) : Nat → List Engine → List (Buffer × Buffer)
  | _, [] => []
  | j, e :: es =>
    match e.buffers? with
    | some bs => if j = k then buffersExcept k (j + 1) es else bs :: buffersExcept k (j + 1) es
    | none => buffersExcept k (j + 1) es

/-- The buffers of every `HASH` in flight on an instance other than the addressed one. -/
def State.othersBuffers (s : State) : List (Buffer × Buffer) := buffersExcept s.active 0 s.engines

/-- The buffers of every `HASH` in flight. -/
def State.allBuffers (s : State) : List (Buffer × Buffer) := s.engines.filterMap Engine.buffers?

/-- The buffer discipline between two commands: neither output buffer overlaps any buffer of the other (R142). -/
def buffersCompatible (b c : Buffer × Buffer) : Bool :=
  b.2.disjoint c.1 && b.2.disjoint c.2 && b.1.disjoint c.2

/-! ### The contract of `HASH` (R45) -/

/-- The clause of R45 that a `HASH` breaks, if it breaks one: judged on all clauses together, before its first effect (R134).
Where it breaks several, the first in the order of this text is named; the outcome is the same refusal (R134). -/
def violation? (s : State) (inPtr len outPtr : Word) : Option Violation :=
  let inp := inputBuffer inPtr len
  let out := outputBuffer outPtr
  if 2 ^ s.plat.aw < inp.base + inp.len ∨ 2 ^ s.plat.aw < out.base + out.len then some .pastTop
  else if inp.disjoint out = false then some .overlap
  else if allBytes s.plat.readableAt inp.base inp.len = false then some .inputNotReadable
  else if allBytes s.plat.writableAt out.base out.len = false then some .outputNotWritable
  else if (allBytes s.plat.ordinaryAt inp.base inp.len && allBytes s.plat.ordinaryAt out.base out.len) = false then
    some .notOrdinary
  else if s.othersBuffers.all (buffersCompatible (inp, out)) = false then some .sharedBuffer
  else none

/-- What refuses a command before its first effect: for `HASH` the contract (R109), for the others nothing (R138). -/
def commandViolation? (s : State) : Instr → Option Violation
  | .hash inPtr len outPtr => violation? s inPtr len outPtr
  | .permute => none
  | .wrlane _ _ => none
  | .rdlane _ => none

end Sys2Proof.Machine
end

