-- ==== Sys2Proof/Machine/LaneAccess.lean ====
section
/-! DEFINITION. The meanings of `WRLANE` and `RDLANE` (spec/43_state_access.md R120, R121). -/

namespace Sys2Proof.Machine

/-- Lane `j` holds `v` and is specified (R120). -/
def Engine.writeLane (e : Engine) (j : Fin 25) (v : Word) : Engine :=
  { e with lanes := e.lanes.set j v, specified := e.specified.set j true }

/-- `WRLANE i, v` (R120). -/
def execWrlane (i : BitVec 5) (v : Word) (s : State) : Host.Outcome State Fault Refusal :=
  onEngine s fun e => onLane i fun j => .next (s.respond (e.writeLane j v) none)

/-- `RDLANE i` (R121): responds with the lane, or, when the lane is unspecified, with a free draw, a new one for each read. -/
def execRdlane (i : BitVec 5) (s : State) : Host.Outcome State Fault Refusal :=
  onEngine s fun e => onLane i fun j =>
    if e.specified[j] then .next (s.respond e (some e.lanes[j]))
    else .next (s.drawn.respond e (some (Config.freeWord s.draws 0)))

end Sys2Proof.Machine
end

