-- ==== Sys2Proof/Machine/Primitives.lean ====
section
/-! DEFINITION. The primitive operations (spec/40_primitives.md R70 to R75): rotation, little-endian load and store, the lane
index of a coordinate. Pure functions: no state, no flags, no failure. -/

namespace Sys2Proof.Machine

/-- 64-bit circular left rotation (R70), with the guard of R71: amounts are reduced mod 64 and amount 0 is the identity. -/
def rotl64 (v : Word) (n : Nat) : Word :=
  if n % 64 = 0 then v else (v <<< (n % 64)) ||| (v >>> (64 - n % 64))

/-- The 64-bit value of 8 bytes, `b[0]` least significant: the sum of `b[k] << 8k` (R72). -/
def load64le (b : Vector Byte 8) : Word :=
  (List.finRange 8).foldl (fun (acc : Word) k => acc + (b[k].setWidth 64 : Word) <<< (8 * k.val)) 0

/-- The 8 bytes of a 64-bit value, `c[k] = bits[8k+7:8k]` (R73). -/
def store64le (v : Word) : Vector Byte 8 := Vector.ofFn fun k : Fin 8 => v.extractLsb' (8 * k.val) 8

/-- The lane index `x + 5*y` (R11, R74). Coordinates are `Fin 5`, whose arithmetic is reduced mod 5 (R74). -/
def laneAt (x y : Fin 5) : Fin 25 := ⟨x.val + 5 * y.val, by omega⟩

/-- The column `x = i mod 5` of a lane (R11). -/
def laneX (i : Fin 25) : Fin 5 := ⟨i.val % 5, by omega⟩

/-- The row `y = i div 5` of a lane (R11). -/
def laneY (i : Fin 25) : Fin 5 := ⟨i.val / 5, by omega⟩

/-- State byte `k` is byte `k mod 8` of lane `k div 8` (R15). -/
def stateByte (A : Lanes) (k : Fin 200) : Byte :=
  (A[k.val / 8]'(by omega)).extractLsb' (8 * (k.val % 8)) 8

end Sys2Proof.Machine
end

