-- ==== Sys2Proof/Machine/Permutation.lean ====
section
/-! DEFINITION. The Permutation Engine (spec/41_permutation.md R80 to R89): Theta, Rho + Pi, Chi, Iota, the round, the 24-round
permutation, and the meaning of `PERMUTE`. `A` is the state before an operation. -/

namespace Sys2Proof.Machine

/-! ### Theta (R80) -/

/-- The parity `C[x]` of column `x`. -/
def columnParity (A : Lanes) : Vector Word 5 :=
  Vector.ofFn fun x => A[laneAt x 0] ^^^ A[laneAt x 1] ^^^ A[laneAt x 2] ^^^ A[laneAt x 3] ^^^ A[laneAt x 4]

/-- `D[x] = C[x-1] xor rotl64(C[x+1], 1)`, from all five `C`. -/
def thetaEffect (C : Vector Word 5) : Vector Word 5 :=
  Vector.ofFn fun x => C[x - 1] ^^^ rotl64 C[x + 1] 1

/-- `THETA` (R80). -/
def theta (A : Lanes) : Lanes :=
  let D := thetaEffect (columnParity A)
  Vector.ofFn fun i => A[i] ^^^ D[laneX i]

/-! ### Rho + Pi (R81 to R83) -/

/-- The next coordinate `(y, (2x + 3y) mod 5)` (R81). -/
def nextCoord (x y : Fin 5) : Fin 5 × Fin 5 := (y, 2 * x + 3 * y)

/-- The rotation amount of step `t` (R74, R81). -/
def rhoAmount (t : Nat) : Nat := ((t + 1) * (t + 2) / 2) % 64

/-- The recurrence of R81 from step `t` at coordinate `(x, y)`, for `n` more steps. `A` is the state before Rho + Pi began,
`B` what has been placed so far. -/
def rhoPiFrom (A : Lanes) : Nat → Nat → Fin 5 → Fin 5 → Lanes → Lanes
  | 0, _, _, _, B => B
  | n + 1, t, x, y, B =>
    let next := nextCoord x y
    rhoPiFrom A n (t + 1) next.1 next.2
      (B.set (laneAt next.1 next.2) (rotl64 A[laneAt x y] (rhoAmount t)))

/-- `RHOPI` (R81): 24 steps from `(1,0)`. Lane `(0,0)` is neither rotated nor moved. -/
def rhoPi (A : Lanes) : Lanes := rhoPiFrom A 24 0 1 0 A

/-- The in-place chain of R82: `cur` is the displaced lane, not yet rotated. -/
def rhoPiChain : Nat → Nat → Fin 5 → Fin 5 → Word → Lanes → Lanes
  | 0, _, _, _, _, S => S
  | n + 1, t, x, y, cur, S =>
    let next := nextCoord x y
    let tmp := S[laneAt next.1 next.2]
    rhoPiChain n (t + 1) next.1 next.2 tmp (S.set (laneAt next.1 next.2) (rotl64 cur (rhoAmount t)))

/-- `RHOPI` in place (R82). -/
def rhoPiInPlace (S : Lanes) : Lanes := rhoPiChain 24 0 1 0 S[laneAt 1 0] S

/-- The third table of R83: for each destination lane its source lane and the rotation amount (0 for lane 0, not rotated). -/
def rhoPiSource : Vector (Fin 25 × Nat) 25 :=
  #v[(0, 0), (6, 44), (12, 43), (18, 21), (24, 14),
     (3, 28), (9, 20), (10, 3), (16, 45), (22, 61),
     (1, 1), (7, 6), (13, 25), (19, 8), (20, 18),
     (4, 27), (5, 36), (11, 10), (17, 15), (23, 56),
     (2, 62), (8, 55), (14, 39), (15, 41), (21, 2)]

/-! ### Chi (R84) -/

/-- `CHI` (R84): every lane from the old lanes of its row. -/
def chi (A : Lanes) : Lanes :=
  Vector.ofFn fun i =>
    let x := laneX i
    let y := laneY i
    A[laneAt x y] ^^^ (~~~A[laneAt (x + 1) y] &&& A[laneAt (x + 2) y])

/-! ### Iota and the round constants (R85, R86) -/

/-- The bit positions that are set in `RC[0 .. 23]`, from the "bits set" column of R86. PRESUMED, unsafe: log entry 13. -/
def roundConstantBits : Vector (List Nat) 24 :=
  #v[[0], [1, 7, 15], [1, 3, 7, 15, 63], [15, 31, 63], [0, 1, 3, 7, 15], [0, 31],
     [0, 7, 15, 31, 63], [0, 3, 15, 63], [1, 3, 7], [3, 7], [0, 3, 15, 31], [1, 3, 31],
     [0, 1, 3, 7, 15, 31], [0, 1, 3, 7, 63], [0, 3, 7, 15, 63], [0, 1, 15, 63], [1, 15, 63], [7, 63],
     [1, 3, 15], [1, 3, 31, 63], [0, 7, 15, 31, 63], [7, 15, 63], [0, 31], [3, 15, 31, 63]]

/-- The lane with exactly these bits set. -/
def laneOfBits (bits : List Nat) : Word := bits.foldl (fun w b => w ||| (1 <<< b)) 0

/-- `RC[0 .. 23]`, hardwired, shared by all instances (R14, R86, R152). PRESUMED, unsafe: log entry 13. -/
def roundConstants : Vector Word 24 := Vector.ofFn fun rnd => laneOfBits roundConstantBits[rnd]

/-- `IOTA(rnd)` (R85): lane `(0,0)` only. -/
def iota (rnd : Fin 24) (A : Lanes) : Lanes := A.set 0 (A[0] ^^^ roundConstants[rnd])

/-! ### The round and the permutation (R87, R88) -/

/-- `ROUND(rnd)` (R87). -/
def keccakRound (rnd : Fin 24) (A : Lanes) : Lanes := iota rnd (chi (rhoPi (theta A)))

/-- `KECCAK_F1600` (R88): rounds 0 to 23 in ascending order. -/
def keccakF (A : Lanes) : Lanes := (List.finRange 24).foldl (fun S rnd => keccakRound rnd S) A

/-! ### The generating rule of the constants (spec/93_implementation_defined.md G2) -/

/-- One step of the 8-bit register: shift left, and XOR `0x71` when bit 7 falls out. -/
def lfsrStep (r : Byte) : Byte := if r.getLsbD 7 then (r <<< 1) ^^^ 0x71 else r <<< 1

/-- The register after `n` steps from `0x01`. -/
def lfsrAt : Nat → Byte
  | 0 => 1
  | n + 1 => lfsrStep (lfsrAt n)

/-- The constant of round `i`: bit `2^j - 1` is the register's low bit after `j + 7i` steps, for `j = 0 .. 6`. -/
def lfsrConstant (i : Nat) : Word :=
  (List.range 7).foldl (fun c j => if (lfsrAt (j + 7 * i)).getLsbD 0 then c ||| (1 <<< (2 ^ j - 1)) else c) 0

/-! ### The command -/

/-- Every lane is specified (R89, R156). -/
def Engine.allSpecified (e : Engine) : Bool := e.specified.toList.all id

/-- What `PERMUTE` leaves in its instance: the permuted lanes, or, when some lane was unspecified, 25 unspecified lanes
(R89, R133 V10, R160). The sequencing values are unspecified between commands (R19). -/
def Engine.permuted (n : Nat) (e : Engine) : Engine :=
  let e' := if e.allSpecified then { e with lanes := keccakF e.lanes } else e.unspecifyLanes n
  { e' with seq := freeSequencing n }

/-- `PERMUTE` (R89). It cannot fail and makes no memory access. -/
def execPermute (s : State) : Host.Outcome State Fault Refusal :=
  onEngine s fun e => .next (s.drawn.respond (e.permuted s.draws) none)

end Sys2Proof.Machine
end

