-- ==== Sys2Proof/Machine/Sponge.lean ====
section
/-! DEFINITION. The Sponge Construction (spec/42_sponge.md R100 to R111): the internal operations of one hash computation, the
meaning of `HASH`, and the hash as a pure function on byte lists. -/

namespace Sys2Proof.Machine

/-! ### Shared by R101, R105 and R111 -/

/-- `PAD_FIRST` (R5, R104). -/
def padFirst : Byte := 0x01

/-- `PAD_LAST` (R5, R104). -/
def padLast : Byte := 0x80

/-- `INIT`: 25 zero lanes (R100). -/
def initLanes : Lanes := Vector.replicate 25 0

/-- Word `i` of a 136-byte block, little-endian (R31). -/
def blockWord (P : Scratch) (i : Fin 17) : Word :=
  load64le (Vector.ofFn fun k : Fin 8 => P[8 * i.val + k.val])

/-- XORs the 17 words of a block into lanes 0 to 16. Lanes 17 to 24 are not touched (R31, R101, R105). -/
def absorbBlock (A : Lanes) (P : Scratch) : Lanes :=
  Vector.ofFn fun i : Fin 25 => if h : i.val < 17 then A[i] ^^^ blockWord P ⟨i.val, h⟩ else A[i]

/-- `PAD(r)`: an assignment, then an OR, in this order (R104). -/
def pad (r : Nat) (P : Scratch) : Scratch :=
  let P := P.setIfInBounds r padFirst
  P.set 135 (P[135] ||| padLast)

/-- Lanes 0 to 3 as 32 little-endian bytes (R32, R106). -/
def digestBytes (A : Lanes) : List Byte :=
  (store64le A[0]).toList ++ (store64le A[1]).toList ++ (store64le A[2]).toList ++ (store64le A[3]).toList

/-! ### The internal operations of `HASH` -/

/-- `ABSORB_MEM(a)` (R101). -/
def absorbMem (a : Nat) (A : Lanes) (s : State) : Lanes × State :=
  let rd := memRead a 136 s
  (absorbBlock A rd.1, rd.2)

/-- The values the full-block loop carries: the cursor, the remaining length, the lanes, the machine (R19, R102). -/
structure Absorbing where
  cur : Nat
  rem : Nat
  lanes : Lanes
  st : State
deriving DecidableEq, Repr

/-- One iteration of the full-block loop (R102). -/
def absorbOne (p : Absorbing) : Absorbing :=
  let ab := absorbMem p.cur p.lanes p.st
  ⟨p.cur + 136, p.rem - 136, keccakF ab.1, ab.2⟩

/-- `while rem >= 136` (R102), with at most as many iterations as the first argument says. -/
def absorbLoop : Nat → Absorbing → Absorbing
  | 0, p => p
  | n + 1, p => if 136 ≤ p.rem then absorbLoop n (absorbOne p) else p

/-- `FILL(a, r)`: zero the scratch buffer, then read the `r` tail bytes into it (R103). -/
def fill (a r : Nat) (s : State) : Scratch × State :=
  let rd := memRead a r s
  (Vector.ofFn fun k : Fin 136 => if h : k.val < r then rd.1[k.val] else 0, rd.2)

/-- `ABSORB_SCR` (R105), with the last permutation. -/
def absorbScr (A : Lanes) (P : Scratch) : Lanes := keccakF (absorbBlock A P)

/-- `SQUEEZE(a)` (R106). -/
def squeeze (a : Nat) (A : Lanes) (s : State) : State := memWrite a (digestBytes A) s

/-- Steps 1 to 5 of one hash computation: the machine after the last output write (R100 to R106, R110). `rem` never exceeds
`len`, so `len` bounds the iterations of the loop. -/
def hashSteps (inPtr len outPtr : Nat) (s : State) : State :=
  let p := absorbLoop len ⟨inPtr, len, initLanes, s⟩
  let f := fill p.cur p.rem p.st
  squeeze outPtr (absorbScr p.lanes (pad p.rem f.1)) f.2

/-- What `HASH` leaves in its instance: lanes, scratch buffer and sequencing values are unspecified (R13, R17, R19). -/
def Engine.discarded (n : Nat) (e : Engine) : Engine :=
  { e.unspecifyLanes n with scr := freeScratch n, seq := freeSequencing n }

/-! ### The command -/

/-- `HASH in_ptr, len, out_ptr` (R110). Operands that no descriptor encodes are refused (R55), and so is a breach of the
contract, before the first effect (R109, R133, R134). -/
def execHash (inPtr len outPtr : Word) (s : State) : Host.Outcome State Fault Refusal :=
  onEngine s fun e =>
    if (Instr.hash inPtr len outPtr).wf s.plat.aw = false then .refused (.reserved .addressBits)
    else match violation? s inPtr len outPtr with
      | some v => .refused (.contractViolation v)
      | none =>
        .next ((hashSteps inPtr.toNat len.toNat outPtr.toNat s).drawn.respond (e.discarded s.draws) none)

/-! ### The hash as a pure function (R111) -/

/-- The 136 bytes of a message from offset `o`, zero bytes after its end. -/
def blockAt (m : List Byte) (o : Nat) : Scratch := Vector.ofFn fun k : Fin 136 => m.getD (o + k.val) 0

/-- `keccak256(m)` (R111). -/
def keccak256 (m : List Byte) : List Byte :=
  let q := m.length / 136
  let r := m.length % 136
  let S := (List.range q).foldl (fun S b => keccakF (absorbBlock S (blockAt m (136 * b)))) initLanes
  digestBytes (keccakF (absorbBlock S (pad r (blockAt m (136 * q)))))

end Sys2Proof.Machine
end

