-- ==== Sys2Proof/Machine/Dispatch.lean ====
section
/-! DEFINITION. One arm per command (spec/30_encoding.md R50). -/

namespace Sys2Proof.Machine

def exec (i : Instr) (s : State) : Host.Outcome State Fault Refusal :=
  match i with
  | .hash inPtr len outPtr => Sys2Proof.Machine.execHash inPtr len outPtr s
  | .permute => Sys2Proof.Machine.execPermute s
  | .wrlane j v => Sys2Proof.Machine.execWrlane j v s
  | .rdlane j => Sys2Proof.Machine.execRdlane j s

end Sys2Proof.Machine
end

