-- ==== Sys2Proof/Machine/Channel.lean ====
section
/-! DEFINITION. The channel protocol at transaction level (spec/30_encoding.md R58), and what the world outside does: issue,
another agent's accesses (R45 (e), R158), reset (R150, R151). A command in flight completes where the order of events says
so, and by itself once no event is left (R58 (e), R163). -/

namespace Sys2Proof.Machine

/-- Issue: the descriptor is sampled whole, an idle instance accepts it and becomes busy (R58 (a), (b)). A busy instance, a
reserved descriptor and an instance that does not exist are refused (R55, R132 V8, V9). -/
def accept (k : Nat) (d : Descriptor) (s : State) : Except Refusal (Instr × State) :=
  match s.engines[k]? with
  | none => .error .noSuchInstance
  | some e =>
    if e.busy then .error .busy
    else match decode s.plat.aw d with
      | .error why => .error (.reserved why)
      | .ok i => .ok (i, (s.setEngineAt k { e with inFlight := some i }).withActive k)

/-- A command from its issue to its response. -/
def runCommand (k : Nat) (d : Descriptor) (s : State) : Host.Outcome State Fault Refusal :=
  match accept k d s with
  | .error r => .refused r
  | .ok (i, s') => exec i s'

/-- Issue only. A `HASH` that breaks the contract is refused here already: the contract holds from issue on (R45, R109). -/
def issueCommand (k : Nat) (d : Descriptor) (s : State) : Host.Outcome State Fault Refusal :=
  match accept k d s with
  | .error r => .refused r
  | .ok (i, s') =>
    match commandViolation? s' i with
    | some v => .refused (.contractViolation v)
    | none => .next s'

/-- The command in flight on instance `k` runs to its response (R58 (e)). An idle instance gives no response (R151). -/
def finishCommand (k : Nat) (s : State) : Host.Outcome State Fault Refusal :=
  match s.engines[k]? with
  | none => .refused .noSuchInstance
  | some e =>
    match e.inFlight with
    | none => .next s
    | some i => exec i (s.withActive k)

/-- Another agent's access to address `a`: it must exist (R30), not be a device's (R36), and not lie in a buffer that a
running command protects (R45 (e), R132 V5). -/
def agentAccess (s : State) (a : Nat) (protectedBy : Buffer × Buffer → Bool) (done : State) :
    Host.Outcome State Fault Refusal :=
  if s.plat.inSpace a = false then .fault (.noSuchAddress a)
  else if s.plat.ordinaryAt a = false then .refused .deviceAccess
  else if s.allBuffers.any protectedBy then .refused (.contractViolation .sharedBuffer)
  else .next done

/-- Another agent stores a byte: neither buffer of a running `HASH` may be written (R45 (e), R158). -/
def agentWrite (a : Nat) (v : Byte) (s : State) : Host.Outcome State Fault Refusal :=
  agentAccess s a (fun b => b.1.contains a || b.2.contains a) (s.withMem (s.mem.write a v))

/-- Another agent loads a byte: the output buffer of a running `HASH` may not be read (R45 (e), R158). -/
def agentRead (a : Nat) (s : State) : Host.Outcome State Fault Refusal :=
  agentAccess s a (fun b => b.2.contains a) s

/-- The output buffers of abandoned `HASH` commands hold any value per byte (R151, U11). -/
def abandonOutputs : List (Buffer × Buffer) → State → State
  | [], s => s
  | b :: bs, s => abandonOutputs bs ((s.withMem (s.mem.writeBytes b.2.base (freeBytes s.draws b.2.len))).drawn)

/-- Reset: commands in flight are abandoned without a response and every instance is as after reset (R150, R151). The
platform, the rest of the caller's memory and the records of the channels are not the block's and stay. -/
def resetAll (s : State) : State :=
  { abandonOutputs s.allBuffers s with engines := s.engines.map fun _ => Engine.reset }

/-- One event of the world outside. -/
def onEvent (ev : Event) (s : State) : Host.Outcome State Fault Refusal :=
  match ev with
  | .command k d => runCommand k d s
  | .issue k d => issueCommand k d s
  | .finish k => finishCommand k s
  | .agentWrite a v => agentWrite a v s
  | .agentRead a => agentRead a s
  | .reset => .next (resetAll s)

/-- The first instance with a command in flight. -/
def State.firstBusy? (s : State) : Option Nat := s.engines.findIdx? Engine.busy

/-- The next event outside. When nothing more happens outside, the first busy instance runs its command to the response: an
issued command never waits for the outside (R58 (e), R163; log entries 9, 24). When every instance is idle nothing happens
(R143, R151). -/
def nextEvent (s : State) : Host.Outcome State Fault Refusal :=
  match s.pending with
  | [] =>
    match s.firstBusy? with
    | some k => finishCommand k s
    | none => .next s
  | ev :: rest => onEvent ev (s.withPending rest)

/-- A command with descriptor `d` to instance `k` comes next. -/
def State.commandNext (s : State) (k : Nat) (d : Descriptor) : State := s.withPending (.command k d :: s.pending)

/-- The descriptor of a table word of `nbits` bits (log entry 16). -/
def tableDescriptor (nbits w : Nat) : Descriptor := BitVec.ofNat 256 (w % 2 ^ nbits)

end Sys2Proof.Machine
end

