-- ==== Sys2Proof/Machine/Step.lean ====
section
/-! DEFINITION. One step of the machine, and how the host gives it its next command. -/

namespace Sys2Proof.Machine

/-- One step: the next event outside the block, with everything the block does in answer, or, without one, the completion of a
command in flight (R163). The work of a command is one step (R24, R135, log entry 9). -/
def step (s : State) : Host.Outcome State Fault Refusal := nextEvent s

/-- The command of a table word comes next, to the addressed instance. The block fetches nothing (R18): its commands arrive
over the command channel. Log entry 10. -/
def State.withFetchWord (s : State) (nbits w : Nat) : State := s.commandNext s.active (tableDescriptor nbits w)

end Sys2Proof.Machine
end

