-- ==== Sys2Proof/Machine/Assembler.lean ====
section
/-! DEFINITION. The assembler's view (spec/30_encoding.md R59, R60; spec/20_memory.md R32): how a command and a digest are written, the pseudo-instructions as the
command sequences they stand for, and the run of a command sequence on the addressed instance. -/

namespace Sys2Proof.Machine

/-- A command as it is written: mnemonic in capitals, operands separated by commas, numbers in decimal (R59). -/
def asmText : Instr → String
  | .hash inPtr len outPtr =>
    "HASH " ++ toString inPtr.toNat ++ ", " ++ toString len.toNat ++ ", " ++ toString outPtr.toNat
  | .permute => "PERMUTE"
  | .wrlane i v => "WRLANE " ++ toString i.toNat ++ ", " ++ toString v.toNat
  | .rdlane i => "RDLANE " ++ toString i.toNat

/-- One hexadecimal digit. -/
def hexDigit (n : Nat) : Char := ("0123456789abcdef".toList).getD n '0'

/-- A digest as it is printed: output byte 0 first, two digits per byte, the high digit first (R32). -/
def digestText (bs : List Byte) : String :=
  String.ofList (bs.flatMap fun b => [hexDigit (b.toNat / 16), hexDigit (b.toNat % 16)])

/-- `LDSTATE v0, …, v24` (R60). -/
def ldstate (vs : Lanes) : List Instr :=
  (List.finRange 25).map fun i => .wrlane (BitVec.ofNat 5 i.val) vs[i]

/-- `CLRSTATE` (R60). -/
def clrstate : List Instr := ldstate (Vector.replicate 25 0)

/-- `RDSTATE` (R60). -/
def rdstate : List Instr := (List.finRange 25).map fun i => .rdlane (BitVec.ofNat 5 i.val)

/-- A command sequence on the addressed instance, each command after the response of the one before (R157). -/
def execSeq : List Instr → State → Host.Outcome State Fault Refusal
  | [], s => .next s
  | i :: is, s =>
    match exec i s with
    | .next s' => execSeq is s'
    | .fault r => .fault r
    | .refused r => .refused r

end Sys2Proof.Machine
end

