-- ==== Sys2Proof/Safety.lean ====
section
/-! DEFINITION. What counts as a safe run, in the terms the statements use: the contract of `HASH` as a proposition, the
invariant of the machine, what a command leaves alone, and runs that neither fault nor are refused. -/

namespace Sys2Proof.Machine

/-- Two buffers have no byte in common (R45 (f), R142). -/
def Buffer.Apart (b c : Buffer) : Prop := ∀ a, ¬ (b.contains a = true ∧ c.contains a = true)

/-- The buffer contract of R45, clause by clause, for a `HASH` addressed to instance `s.active`. -/
structure HashContract (s : State) (inPtr len outPtr : Word) : Prop where
  /-- (a), (c): every input byte is readable. -/
  readable : ∀ j, j < len.toNat → s.plat.readableAt (inPtr.toNat + j) = true
  /-- (b): every output byte is writable. -/
  writable : ∀ j, j < 32 → s.plat.writableAt (outPtr.toNat + j) = true
  /-- (d): no buffer runs past the top. -/
  inSpace : inPtr.toNat + len.toNat ≤ 2 ^ s.plat.aw ∧ outPtr.toNat + 32 ≤ 2 ^ s.plat.aw
  /-- (e): no `HASH` in flight on another instance shares an output byte. -/
  exclusive : ∀ k e i l o, k ≠ s.active → s.engines[k]? = some e → e.inFlight = some (.hash i l o) →
    (outputBuffer outPtr).Apart (inputBuffer i l) ∧ (outputBuffer outPtr).Apart (outputBuffer o) ∧
      (inputBuffer inPtr len).Apart (outputBuffer o)
  /-- (f): the buffers do not overlap. -/
  apart : (inputBuffer inPtr len).Apart (outputBuffer outPtr)
  /-- (g): both buffers are ordinary memory. -/
  ordinary : (∀ j, j < len.toNat → s.plat.ordinaryAt (inPtr.toNat + j) = true) ∧
    ∀ j, j < 32 → s.plat.ordinaryAt (outPtr.toNat + j) = true

/-- The invariant of the machine. -/
structure State.Inv (s : State) : Prop where
  /-- The memory is in canonical form. -/
  memCanonical : s.mem.wf
  /-- Every listed byte has an address below `2^AW` (R30). -/
  memInSpace : ∀ c ∈ s.mem, c.1 < 2 ^ s.plat.aw
  /-- Every command in flight is one the opcode map admits, and keeps its contract for its whole duration (R45, R54). -/
  inFlightLawful : ∀ k e i, s.engines[k]? = some e → e.inFlight = some i →
    i.wf s.plat.aw = true ∧ commandViolation? (s.withActive k) i = none
  /-- Every response came from an instance that exists (R57). -/
  responders : ∀ r ∈ s.responses, r.engine < s.engines.length

/-- What a command on instance `s.active` never changes: the platform, the number of instances, every other instance, which
instance is addressed, what is still to happen outside (R37, R139, R141). -/
structure OutsideKept (s t : State) : Prop where
  plat : t.plat = s.plat
  count : t.engines.length = s.engines.length
  others : ∀ k, k ≠ s.active → t.engines[k]? = s.engines[k]?
  active : t.active = s.active
  pending : t.pending = s.pending

/-- Memory and the memory channel are untouched. -/
structure MemoryKept (s t : State) : Prop where
  bytes : ∀ a, t.mem.read a = s.mem.read a
  cells : t.mem = s.mem
  bus : t.bus = s.bus

/-- `n` steps from `s` run without a fault and without a refusal. -/
def SafeRun : Nat → State → Prop
  | 0, _ => True
  | n + 1, s => ∃ t, step s = .next t ∧ SafeRun n t

end Sys2Proof.Machine
end

