-- ==== Sys2Proof/Certificates/Slice0/Obligations.lean ====
section
/-! DEFINITION. The statements for the provers, each with the rules of spec/ it rests on. `s` is the machine before, `t`
after; `e` is the addressed instance before, `e'` after. -/

open Sys2Proof Sys2Proof.Machine Host

/-! ## Encoding (30_encoding.md) -/

/-- Decoding the encoding of a well-formed command gives it back, with every operand at every value the encoding admits
(R51 to R54). -/
def Obligations.DecodeInvertsEncode : Prop :=
  ∀ (aw : Nat) (i : Instr), i.wf aw = true → decode aw (encode i) = .ok i

/-- A descriptor that decodes is the encoding of what it decodes to, which is well formed: no two descriptors share a command
(R51 to R55). -/
def Obligations.EncodeInvertsDecode : Prop :=
  ∀ (aw : Nat) (d : Descriptor) (i : Instr), decode aw d = .ok i → encode i = d ∧ i.wf aw = true

/-- R62: every descriptor selects exactly one row of the opcode map, its command's, or none and is reserved; and an instance
accepts, whichever it is and whatever it holds, the command the descriptor alone decodes to. -/
def Obligations.EveryDescriptorSelectsOneRowOrIsReserved : Prop :=
  (∀ (aw : Nat) (d : Descriptor),
    (∃ i, decode aw d = .ok i ∧ selectedRows aw d = [i.mnemonic]) ∨
      (∃ r, decode aw d = .error r ∧ selectedRows aw d = [])) ∧
  ∀ (k : Nat) (d : Descriptor) (s s' : State) (i : Instr), accept k d s = .ok (i, s') → decode s.plat.aw d = .ok i

/-- R55: which descriptors are reserved, and that a command with one is refused whole. -/
def Obligations.ReservedDescriptorsAreRefused : Prop :=
  (∀ (aw : Nat) (d : Descriptor), (∃ r, decode aw d = .error r) ↔
    (opField d = 0 ∨ 5 ≤ (opField d).toNat) ∨ rsvField d ≠ 0 ∨
    ((opField d = 1 ∨ opField d = 2) ∧ idxField d ≠ 0) ∨
    ((opField d = 3 ∨ opField d = 4) ∧ 25 ≤ (idxField d).toNat) ∨
    (opField d = 2 ∧ (descWord d 1 ≠ 0 ∨ descWord d 2 ≠ 0 ∨ descWord d 3 ≠ 0)) ∨
    (opField d = 3 ∧ (descWord d 2 ≠ 0 ∨ descWord d 3 ≠ 0)) ∨
    (opField d = 4 ∧ (descWord d 1 ≠ 0 ∨ descWord d 2 ≠ 0 ∨ descWord d 3 ≠ 0)) ∨
    (opField d = 1 ∧ ∃ n, (n = 1 ∨ n = 2 ∨ n = 3) ∧ 2 ^ aw ≤ (descWord d n).toNat)) ∧
  ∀ (s : State) (k : Nat) (d : Descriptor) (rest : List Event) (e : Engine) (r : Reserved),
    (s.pending = .command k d :: rest ∨ s.pending = .issue k d :: rest) →
    s.engines[k]? = some e → e.inFlight = none → decode s.plat.aw d = .error r →
    step s = .refused (.reserved r)

/-- Descriptors of spec/95_test_vectors.md T15, written out, decode to the commands they stand for. -/
def Obligations.SampleDescriptorsDecode : Prop :=
  decode 64 0x0000000000003000000000000000000300000000000020000000000000000001 = .ok (.hash 0x2000 3 0x3000) ∧
  decode 64 0x2 = .ok .permute ∧
  decode 64 0x00000000000000000000000000000000DEADBEEF000000010000000000001803 =
    .ok (.wrlane 24 0xDEADBEEF00000001) ∧
  decode 64 0x1804 = .ok (.rdlane 24) ∧
  decode 64 0x0 = .error .opcode

/-! ## One step (R18, R24, R58) -/

/-- When a command's descriptor comes next, to an instance that exists and is idle, and decodes, the step is that command's
`exec`, on a machine in which the event is taken, the instance is addressed and is busy with the command. -/
def Obligations.StepRunsTheDecodedCommand : Prop :=
  ∀ (s : State) (k : Nat) (d : Descriptor) (rest : List Event) (e : Engine) (i : Instr),
    s.pending = .command k d :: rest → s.engines[k]? = some e → e.inFlight = none →
    decode s.plat.aw d = .ok i →
    step s = exec i (((s.withPending rest).setEngineAt k { e with inFlight := some i }).withActive k)

/-- The host's table word, put next, is the command the step runs. -/
def Obligations.FetchWordIsTheNextCommand : Prop :=
  ∀ (s : State) (e : Engine) (nbits w : Nat) (i : Instr),
    s.engine? = some e → e.inFlight = none → s.plat.aw = 64 → decodeTableWord nbits w = some i →
    step (s.withFetchWord nbits w) = exec i (s.setEngine { e with inFlight := some i })

/-- Issuing a descriptor that decodes, to an idle instance, makes that instance busy with the command and changes nothing else
(but the model's own `active`, log entry 11); a `HASH` outside its contract is refused at issue already; and issue followed by
completion is the command in one step (R24, R45, R58 (a), (b), R109). The contract `HashContract` holds exactly when
`commandViolation?` finds nothing; the other commands have none. -/
def Obligations.IssueThenFinishIsTheCommand : Prop :=
  (∀ (s : State) (k : Nat) (d : Descriptor) (rest : List Event) (e : Engine) (i : Instr),
    s.pending = .issue k d :: rest → s.engines[k]? = some e → e.inFlight = none → decode s.plat.aw d = .ok i →
    ((∀ a l o, i = .hash a l o → HashContract (s.withActive k) a l o) →
      commandViolation? (s.withActive k) i = none ∧
      ∃ t, step s = .next t ∧ t.engines[k]? = some { e with inFlight := some i } ∧
        (∀ j, j ≠ k → t.engines[j]? = s.engines[j]?) ∧ t.engines.length = s.engines.length ∧
        t.plat = s.plat ∧ t.mem = s.mem ∧ t.bus = s.bus ∧ t.responses = s.responses ∧ t.draws = s.draws ∧
        t.active = k ∧ t.pending = rest) ∧
    (∀ a l o, i = .hash a l o → ¬ HashContract (s.withActive k) a l o →
      ∃ v, commandViolation? (s.withActive k) i = some v ∧ step s = .refused (.contractViolation v))) ∧
  ∀ (s s₁ : State) (k : Nat) (d : Descriptor) (rest : List Event),
    step (s.withPending (.issue k d :: .finish k :: rest)) = .next s₁ →
    step s₁ = step (s.withPending (.command k d :: rest))

/-- A busy instance accepts no command (R58 (b), R132 V9, R157). -/
def Obligations.BusyInstanceAcceptsNoCommand : Prop :=
  ∀ (s : State) (k : Nat) (d : Descriptor) (rest : List Event) (e : Engine) (i : Instr),
    (s.pending = .command k d :: rest ∨ s.pending = .issue k d :: rest) →
    s.engines[k]? = some e → e.inFlight = some i → step s = .refused .busy

/-- Without a command nothing happens: no access, no response, no change (R143, R151). With nothing to come from outside this
is so as soon as every instance is idle; and letting an idle instance finish changes nothing. -/
def Obligations.IdleInstanceKeepsItsState : Prop :=
  (∀ s : State, s.pending = [] → (∀ e ∈ s.engines, e.inFlight = none) → step s = .next s) ∧
  ∀ (s : State) (k : Nat) (rest : List Event) (e : Engine),
    s.pending = .finish k :: rest → s.engines[k]? = some e → e.inFlight = none →
    step s = .next (s.withPending rest)

/-- When nothing more comes from outside, the first busy instance runs its command to the response, by itself: the step answers a
next state with one response more, from that instance, with data only for `RDLANE`; that instance is idle again and the others
keep what they have in flight (R57, R58 (e), R163). That the first busy instance goes first is the model's choice, log entry 9. -/
def Obligations.BusyInstanceRespondsByItself : Prop :=
  ∀ (s : State) (k : Nat) (e : Engine) (i : Instr), s.Inv → s.pending = [] →
    s.engines[k]? = some e → e.inFlight = some i →
    (∀ j, j < k → ∀ e', s.engines[j]? = some e' → e'.inFlight = none) →
    step s = exec i (s.withActive k) ∧
    ∃ t e' d, step s = .next t ∧ t.responses = s.responses ++ [⟨k, d⟩] ∧ (d.isSome = true ↔ ∃ j, i = .rdlane j) ∧
      t.engines[k]? = some e' ∧ e'.inFlight = none ∧ (∀ j, j ≠ k → t.engines[j]? = s.engines[j]?) ∧
      t.plat = s.plat ∧ t.pending = []

/-- Every command in flight responds after finitely many steps (R58 (e), R163): once the events from outside are taken, as many
steps as there are busy instances answer next states, give exactly one response for each busy instance, in the order of the
instances (the order is the model's choice, log entry 9), and leave every instance idle. -/
def Obligations.EveryIssuedCommandResponds : Prop :=
  ∀ s t : State, s.Inv → core.run s.pending.length s = .next t →
    t.pending = [] ∧
    ∃ (u : State) (rs : List Response), core.run (t.engines.countP Engine.busy) t = .next u ∧
      u.responses = t.responses ++ rs ∧
      rs.map Response.engine = (List.range t.engines.length).filter (fun k => (t.engines[k]?).any Engine.busy) ∧
      (∀ e ∈ u.engines, e.inFlight = none) ∧ u.engines.length = t.engines.length ∧ u.pending = []

/-- No command raises an exception, and a command that an idle instance accepts and that breaks no contract always completes
(R130, R163). -/
def Obligations.AcceptedCommandAlwaysCompletes : Prop :=
  (∀ (i : Instr) (s : State) (r : Fault), exec i s ≠ .fault r) ∧
  ∀ (s s' : State) (k : Nat) (d : Descriptor) (rest : List Event) (i : Instr),
    s.pending = .command k d :: rest → accept k d (s.withPending rest) = .ok (i, s') →
    commandViolation? s' i = none → ∃ t, step s = .next t

/-- Each command has exactly one response, from its own instance, given when the command has finished: the instance is idle again.
Only `RDLANE`'s carries data (R57). -/
def Obligations.EveryCommandGivesOneResponse : Prop :=
  ∀ (i : Instr) (s t : State), exec i s = .next t →
    (∃ d : Option Word, t.responses = s.responses ++ [⟨s.active, d⟩] ∧ (d.isSome = true ↔ ∃ j, i = .rdlane j)) ∧
    ∃ e', t.engine? = some e' ∧ e'.inFlight = none

/-! ## Primitives (40_primitives.md) -/

/-- R70 and R71: rotation moves bit `j` to bit `(j + n) mod 64`, with the corner cases and examples of the rules. -/
def Obligations.RotateMovesEveryBit : Prop :=
  (∀ (v : Word) (n : Nat), 1 ≤ n → n ≤ 63 →
    rotl64 v n = (v <<< n) ||| (v >>> (64 - n)) ∧
    (∀ j, j < 64 → (rotl64 v n).getLsbD ((j + n) % 64) = v.getLsbD j)) ∧
  (∀ n, rotl64 0 n = 0 ∧ rotl64 0xFFFFFFFFFFFFFFFF n = 0xFFFFFFFFFFFFFFFF) ∧
  (∀ v : Word, rotl64 v 63 = (v >>> 1) ||| (v <<< 63)) ∧
  (∀ v : Word, rotl64 v 0 = v) ∧ (∀ (v : Word) (n : Nat), rotl64 v n = rotl64 v (n % 64)) ∧
  (∀ t, t < 24 → 1 ≤ rhoAmount t ∧ rhoAmount t ≤ 62) ∧
  rotl64 1 1 = 2 ∧ rotl64 0x8000000000000000 1 = 1 ∧
  rotl64 0x0123456789ABCDEF 4 = 0x123456789ABCDEF0 ∧
  rotl64 0x0123456789ABCDEF 32 = 0x89ABCDEF01234567 ∧
  rotl64 0x0123456789ABCDEF 63 = 0x8091A2B3C4D5E6F7

/-- R72 and R73: little-endian load and store, inverse to each other, and their place in memory. -/
def Obligations.LoadAndStoreAreLittleEndianInverses : Prop :=
  (∀ b : Vector Byte 8, (load64le b).toNat =
    b[0].toNat + b[1].toNat * 2 ^ 8 + b[2].toNat * 2 ^ 16 + b[3].toNat * 2 ^ 24 + b[4].toNat * 2 ^ 32 +
      b[5].toNat * 2 ^ 40 + b[6].toNat * 2 ^ 48 + b[7].toNat * 2 ^ 56) ∧
  (∀ (v : Word) (k : Fin 8), (store64le v)[k] = v.extractLsb' (8 * k.val) 8) ∧
  (∀ v : Word, load64le (store64le v) = v) ∧ (∀ b : Vector Byte 8, store64le (load64le b) = b) ∧
  (∀ (a : Nat) (s : State) (k : Fin 8), (memRead a 8 s).1[k] = s.mem.read (a + k.val)) ∧
  (∀ (a : Nat) (v : Word) (s : State), s.mem.wf →
    (∀ k : Fin 8, (memWrite a (store64le v).toList s).mem.read (a + k.val) = (store64le v)[k]) ∧
    (memWrite a (store64le v).toList s).bus =
      s.bus ++ (List.finRange 8).map fun k => .write s.active (a + k.val) (store64le v)[k]) ∧
  load64le (Vector.replicate 8 0) = 0 ∧
  load64le #v[1, 2, 3, 4, 5, 6, 7, 8] = 0x0807060504030201 ∧
  store64le 0x0102030405060708 = #v[8, 7, 6, 5, 4, 3, 2, 1]

/-! ## The permutation (41_permutation.md) -/

/-- R80: Theta lane by lane, from the column parities of the state before it, with the rule's corner cases and example. -/
def Obligations.ThetaXorsColumnParities : Prop :=
  (∀ (A : Lanes) (x : Fin 5), (columnParity A)[x] =
    A[laneAt x 0] ^^^ A[laneAt x 1] ^^^ A[laneAt x 2] ^^^ A[laneAt x 3] ^^^ A[laneAt x 4]) ∧
  (∀ (A : Lanes) (x y : Fin 5), (theta A)[laneAt x y] =
    A[laneAt x y] ^^^ ((columnParity A)[x - 1] ^^^ rotl64 (columnParity A)[x + 1] 1)) ∧
  (∀ A : Lanes, (∀ x : Fin 5, (columnParity A)[x] = 0) → theta A = A) ∧
  theta (Vector.replicate 25 0) = Vector.replicate 25 0 ∧
  theta ((Vector.replicate 25 0).set 0 1) =
    #v[1, 1, 0, 0, 2, 0, 1, 0, 0, 2, 0, 1, 0, 0, 2, 0, 1, 0, 0, 2, 0, 1, 0, 0, 2]

/-- The recurrence of R81 gives the tables of R83: by destination lane, and by the source lane's coordinate; no amount of a
moved lane is 0. -/
def Obligations.RhoPiAgreesWithItsTables : Prop :=
  (∀ (A : Lanes) (j : Fin 25), (rhoPi A)[j] = rotl64 A[(rhoPiSource[j]).1] (rhoPiSource[j]).2) ∧
  (∀ (A : Lanes) (x y : Fin 5), ∃ n, n ≤ 62 ∧ (n = 0 ↔ x = 0 ∧ y = 0) ∧
    rhoPiSource[laneAt y (2 * x + 3 * y)] = (laneAt x y, n) ∧
    (rhoPi A)[laneAt y (2 * x + 3 * y)] = rotl64 A[laneAt x y] n) ∧
  ∀ A : Lanes, (rhoPi A)[(0 : Fin 25)] = A[(0 : Fin 25)]

/-- R82: the in-place chain gives the same state as R81 for every input. -/
def Obligations.InPlaceRhoPiAgrees : Prop := ∀ S : Lanes, rhoPiInPlace S = rhoPi S

/-- R84: Chi row by row from the old row, with the rule's corner cases and example. -/
def Obligations.ChiMixesEachRowFromItsSnapshot : Prop :=
  (∀ (A : Lanes) (x y : Fin 5), (chi A)[laneAt x y] =
    A[laneAt x y] ^^^ (~~~A[laneAt (x + 1) y] &&& A[laneAt (x + 2) y])) ∧
  (∀ (A : Lanes) (y : Fin 5) (v : Word), (∀ x, A[laneAt x y] = v) → ∀ x, (chi A)[laneAt x y] = v) ∧
  (∀ (A : Lanes) (y k : Fin 5) (v : Word), A[laneAt k y] = v → (∀ x, x ≠ k → A[laneAt x y] = 0) →
    ∀ x, (chi A)[laneAt x y] = if x = k ∨ x = k - 2 then v else 0) ∧
  chi (Vector.replicate 25 0) = Vector.replicate 25 0 ∧
  chi (Vector.replicate 25 0xFFFFFFFFFFFFFFFF) = Vector.replicate 25 0xFFFFFFFFFFFFFFFF ∧
  (∀ A : Lanes, A[laneAt 0 0] = 0xFFFFFFFFFFFFFFFF → A[laneAt 1 0] = 0 → A[laneAt 2 0] = 0xFFFFFFFFFFFFFFFF →
    A[laneAt 3 0] = 0x00000000FFFFFFFF → A[laneAt 4 0] = 0xAAAAAAAAAAAAAAAA →
    (chi A)[laneAt 0 0] = 0 ∧ (chi A)[laneAt 1 0] = 0 ∧ (chi A)[laneAt 2 0] = 0x55555555FFFFFFFF ∧
    (chi A)[laneAt 3 0] = 0x55555555AAAAAAAA ∧ (chi A)[laneAt 4 0] = 0xAAAAAAAAAAAAAAAA)

/-- R85: Iota changes lane `(0,0)` only. -/
def Obligations.IotaTouchesLaneZeroOnly : Prop :=
  (∀ (rnd : Fin 24) (A : Lanes), (iota rnd A)[(0 : Fin 25)] = A[(0 : Fin 25)] ^^^ roundConstants[rnd] ∧
    ∀ j : Fin 25, j ≠ 0 → (iota rnd A)[j] = A[j]) ∧
  (iota 0 (Vector.replicate 25 0))[(0 : Fin 25)] = 1 ∧
  ∀ A : Lanes, A[(0 : Fin 25)] = 1 → (iota 1 A)[(0 : Fin 25)] = 0x8083

/-- The table of round constants is the one the generating rule gives (R86, 93 G2). The values are PRESUMED, log entry 13. -/
def Obligations.RoundConstantsFollowTheRegister : Prop :=
  (∀ rnd : Fin 24, roundConstants[rnd] = lfsrConstant rnd.val) ∧
  roundConstants[6] = roundConstants[20] ∧ roundConstants[5] = roundConstants[22]

/-- The permutation is rounds 0 to 23 in ascending order, and maps the all-zero state as R88 and T6 say. -/
def Obligations.PermutationIsTwentyFourAscendingRounds : Prop :=
  (∀ A : Lanes, ∃ S : Nat → Lanes, S 0 = A ∧ (∀ rnd : Fin 24, S (rnd.val + 1) = keccakRound rnd (S rnd.val)) ∧
    keccakF A = S 24) ∧
  (keccakF (Vector.replicate 25 0))[0] = 0xF1258F7940E1DDE7 ∧
  (keccakF (Vector.replicate 25 0))[1] = 0x84D5CCF933C0478A ∧
  (keccakF (Vector.replicate 25 0))[24] = 0xEAF1FF7B5CECA249

/-- `PERMUTE` with every lane specified: the lanes are permuted, and nothing but the lanes and the sequencing values of R19
changes (R89, R19). -/
def Obligations.PermuteAppliesThePermutation : Prop :=
  ∀ (s : State) (e : Engine), s.engine? = some e → (∀ j : Fin 25, e.specified[j] = true) →
    ∃ t e', exec .permute s = .next t ∧ t.engine? = some e' ∧
      e'.lanes = keccakF e.lanes ∧ e'.specified = e.specified ∧ e'.scr = e.scr ∧ e'.inFlight = none ∧
      t.responses = s.responses ++ [⟨s.active, none⟩] ∧ OutsideKept s t ∧ MemoryKept s t

/-- `PERMUTE` with some lane unspecified completes and leaves all 25 lanes unspecified (R89, R133 V10, R160). -/
def Obligations.PermuteOfUnspecifiedLanesIsUnspecified : Prop :=
  ∀ (s : State) (e : Engine), s.engine? = some e → (∃ j : Fin 25, e.specified[j] = false) →
    ∃ t e', exec .permute s = .next t ∧ t.engine? = some e' ∧
      (∀ j : Fin 25, e'.specified[j] = false) ∧ e'.scr = e.scr ∧ e'.inFlight = none ∧
      t.responses = s.responses ++ [⟨s.active, none⟩] ∧ OutsideKept s t ∧ MemoryKept s t

/-! ## Lane access (43_state_access.md) -/

/-- R120: `WRLANE` writes lane `i`, makes it specified and writes nothing else; an index above 24 is refused; the last of
two writes stays; a written lane is read back. -/
def Obligations.WrlaneWritesOneLane : Prop :=
  (∀ (s : State) (e : Engine) (i : BitVec 5) (v : Word), s.engine? = some e →
    (∀ hi : i.toNat < 25, ∃ t e', exec (.wrlane i v) s = .next t ∧ t.engine? = some e' ∧
      e'.lanes[i.toNat] = v ∧ e'.specified[i.toNat] = true ∧
      (∀ j : Fin 25, j.val ≠ i.toNat → e'.lanes[j] = e.lanes[j] ∧ e'.specified[j] = e.specified[j]) ∧
      e'.scr = e.scr ∧ e'.seq = e.seq ∧ e'.inFlight = none ∧ t.draws = s.draws ∧
      t.responses = s.responses ++ [⟨s.active, none⟩] ∧ OutsideKept s t ∧ MemoryKept s t) ∧
    (25 ≤ i.toNat → exec (.wrlane i v) s = .refused (.reserved .laneIndex))) ∧
  ∀ (s : State) (e : Engine) (i : BitVec 5) (v w : Word), s.engine? = some e → i.toNat < 25 →
    ∃ t u, execSeq [.wrlane i v, .wrlane i w, .rdlane i] s = .next t ∧ exec (.wrlane i w) s = .next u ∧
      t.engine? = u.engine? ∧ t.responses.getLast? = some ⟨s.active, some w⟩

/-- `RDLANE` of a specified lane responds with the lane and changes nothing; an index above 24 is refused (R121). -/
def Obligations.RdlaneRespondsWithTheLane : Prop :=
  ∀ (s : State) (e : Engine) (i : BitVec 5), s.engine? = some e →
    (∀ hi : i.toNat < 25, e.specified[i.toNat] = true → ∃ t, exec (.rdlane i) s = .next t ∧
      t.engine? = some { e with inFlight := none } ∧ t.draws = s.draws ∧
      t.responses = s.responses ++ [⟨s.active, some e.lanes[i.toNat]⟩] ∧ OutsideKept s t ∧ MemoryKept s t) ∧
    (25 ≤ i.toNat → exec (.rdlane i) s = .refused (.reserved .laneIndex))

/-- `RDLANE` of an unspecified lane completes with the model's free draw, a constant without a body: whatever bits the lane stores,
the response is that draw, and the next draw is another one; the instance is unchanged (R121, 92 D11, 93 U8; log entry 8). -/
def Obligations.RdlaneOfUnspecifiedLaneIsFree : Prop :=
  ∀ (s : State) (e : Engine) (i : BitVec 5) (hi : i.toNat < 25) (w : Word), s.engine? = some e →
    e.specified[i.toNat] = false →
    ∃ t u, exec (.rdlane i) s = .next t ∧
      exec (.rdlane i) (s.setEngine { e with lanes := e.lanes.set i.toNat w }) = .next u ∧
      t.responses = s.responses ++ [⟨s.active, some (Config.freeWord s.draws 0)⟩] ∧ u.responses = t.responses ∧
      t.engine? = some { e with inFlight := none } ∧ t.draws = s.draws + 1 ∧ OutsideKept s t ∧ MemoryKept s t

/-- `LDSTATE`, `PERMUTE`, `RDSTATE` on any instance: 51 responses, the last 25 the permuted lanes in order; memory untouched
(R60, R122). -/
def Obligations.LoadPermuteReadGivesThePermutation : Prop :=
  ∀ (s : State) (e : Engine) (vs : Lanes), s.engine? = some e →
    ∃ t e', execSeq (ldstate vs ++ [.permute] ++ rdstate) s = .next t ∧ t.engine? = some e' ∧
      e'.lanes = keccakF vs ∧ (∀ j : Fin 25, e'.specified[j] = true) ∧
      t.responses = s.responses ++ List.replicate 26 ⟨s.active, none⟩ ++
        (List.finRange 25).map (fun j => ⟨s.active, some (keccakF vs)[j]⟩) ∧
      OutsideKept s t ∧ MemoryKept s t

/-! ## The sponge (42_sponge.md) -/

/-- R101: absorbing 136 bytes of memory XORs byte `j` into state byte `j`, leaves lanes 17 to 24 alone, and reads each byte once,
ascending. -/
def Obligations.AbsorbXorsEachByteIntoTheRate : Prop :=
  (∀ (a : Nat) (A : Lanes) (s : State),
    (∀ j : Fin 200, stateByte (absorbMem a A s).1 j =
      if j.val < 136 then stateByte A j ^^^ s.mem.read (a + j.val) else stateByte A j) ∧
    (∀ i : Fin 25, 17 ≤ i.val → (absorbMem a A s).1[i] = A[i]) ∧
    (absorbMem a A s).2 = s.logBus ((List.range 136).map fun j => .read s.active (a + j)) ∧
    ((∀ j, j < 136 → s.mem.read (a + j) = 0) → (absorbMem a A s).1 = A)) ∧
  ∀ (a : Nat) (s : State), (∀ j, j < 136 → s.mem.read (a + j) = 0x61) →
    ∀ i : Fin 25, (absorbMem a initLanes s).1[i] = if i.val < 17 then 0x6161616161616161 else 0

/-- R102: the loop runs exactly `len div 136` times and leaves `rem = len mod 136` and `cur = in_ptr + 136 * (len div 136)`. -/
def Obligations.FullBlockLoopRunsLenDiv136Times : Prop :=
  ∀ (inPtr len : Nat) (A : Lanes) (s : State),
    absorbLoop len ⟨inPtr, len, A, s⟩ = absorbOne^[len / 136] ⟨inPtr, len, A, s⟩ ∧
    (absorbLoop len ⟨inPtr, len, A, s⟩).rem = len % 136 ∧
    (absorbLoop len ⟨inPtr, len, A, s⟩).cur = inPtr + 136 * (len / 136)

/-- R103 and R104: the scratch buffer after `FILL` and after `PAD`, byte by byte, and the `r` reads. -/
def Obligations.FinalBlockIsTailThenPadding : Prop :=
  ∀ (a r : Nat) (s : State), r < 136 →
    (fill a r s).2 = s.logBus ((List.range r).map fun k => .read s.active (a + k)) ∧
    (∀ k : Fin 136, (fill a r s).1[k] = if k.val < r then s.mem.read (a + k.val) else 0) ∧
    (∀ k : Fin 136, (pad r (fill a r s).1)[k] =
      if k.val < r then s.mem.read (a + k.val)
      else if k.val = r then (if r = 135 then 0x81 else 0x01)
      else if k.val = 135 then 0x80 else 0)

/-- R106: the output bytes are state bytes 0 to 31, written once each, ascending; nothing is read and no lane changes. -/
def Obligations.SqueezeWritesTheFirst32StateBytes : Prop :=
  (∀ (a : Nat) (A : Lanes) (s : State), s.mem.wf →
    (∀ j : Fin 32, (squeeze a A s).mem.read (a + j.val) = stateByte A ⟨j.val, by omega⟩) ∧
    (∀ b, b < a ∨ a + 32 ≤ b → (squeeze a A s).mem.read b = s.mem.read b) ∧
    (squeeze a A s).bus = s.bus ++ (List.finRange 32).map
      (fun j => .write s.active (a + j.val) (stateByte A ⟨j.val, by omega⟩)) ∧
    (squeeze a A s).engines = s.engines) ∧
  ∀ (a : Nat) (A : Lanes) (s : State), s.mem.wf → A[0] = 0x4FA945EA7A65034E →
    (squeeze a A s).mem.bytes a 8 = [0x4e, 0x03, 0x65, 0x7a, 0xea, 0x45, 0xa9, 0x4f]

/-- The known answers of the source for the empty input (with the digit of 90 C1) and for "abc" (V1, V2). -/
def Obligations.KnownAnswersComeOut : Prop :=
  keccak256 [] =
    [0xc5, 0xd2, 0x46, 0x01, 0x86, 0xf7, 0x23, 0x3c, 0x92, 0x7e, 0x7d, 0xb2, 0xdc, 0xc7, 0x03, 0xc0,
     0xe5, 0x00, 0xb6, 0x53, 0xca, 0x82, 0x27, 0x3b, 0x7b, 0xfa, 0xd8, 0x04, 0x5d, 0x85, 0xa4, 0x70] ∧
  keccak256 [0x61, 0x62, 0x63] =
    [0x4e, 0x03, 0x65, 0x7a, 0xea, 0x45, 0xa9, 0x4f, 0xc7, 0xd4, 0x7b, 0xa8, 0x26, 0xc8, 0xd6, 0x67,
     0xc0, 0xd1, 0xe6, 0xe3, 0x3a, 0x64, 0xa0, 0x36, 0xec, 0x44, 0xf5, 0x8f, 0xa1, 0x2d, 0x6c, 0x45]

/-- R109: `HASH` has a result exactly when the contract of R45 holds; otherwise it is refused whole. -/
def Obligations.HashRunsExactlyUnderItsContract : Prop :=
  ∀ (s : State) (e : Engine) (inPtr len outPtr : Word), s.engine? = some e →
    (Instr.hash inPtr len outPtr).wf s.plat.aw = true →
    (HashContract s inPtr len outPtr → ∃ t, exec (.hash inPtr len outPtr) s = .next t) ∧
    (¬ HashContract s inPtr len outPtr →
      ∃ v, exec (.hash inPtr len outPtr) s = .refused (.contractViolation v))

/-- R110: under the contract `HASH` completes; output byte `j` is byte `j` of `keccak256` of the input bytes as they were at issue,
every other byte of memory is unchanged; `len` byte reads, then 32 byte writes; the response has no data; the instance's lanes
are unspecified. Without the contract the command is refused. With the rule's encoding and its example. -/
def Obligations.HashStoresTheDigestOfTheInput : Prop :=
  (∀ (s : State) (e : Engine) (inPtr len outPtr : Word), s.engine? = some e → s.mem.wf →
    (Instr.hash inPtr len outPtr).wf s.plat.aw = true →
    (HashContract s inPtr len outPtr → ∃ (t : State) (e' : Engine) (digest : Vector Byte 32),
      exec (.hash inPtr len outPtr) s = .next t ∧ t.engine? = some e' ∧
      keccak256 (s.mem.bytes inPtr.toNat len.toNat) = digest.toList ∧
      (∀ j : Fin 32, t.mem.read (outPtr.toNat + j.val) = digest[j]) ∧
      (∀ a, a < outPtr.toNat ∨ outPtr.toNat + 32 ≤ a → t.mem.read a = s.mem.read a) ∧
      t.bus = s.bus ++ (List.range len.toNat).map (fun j => .read s.active (inPtr.toNat + j)) ++
        (List.finRange 32).map (fun j => .write s.active (outPtr.toNat + j.val) digest[j]) ∧
      (∀ j : Fin 25, e'.specified[j] = false) ∧ e'.inFlight = none ∧
      t.responses = s.responses ++ [⟨s.active, none⟩] ∧ OutsideKept s t) ∧
    (¬ HashContract s inPtr len outPtr →
      ∃ v, exec (.hash inPtr len outPtr) s = .refused (.contractViolation v))) ∧
  (∀ inPtr len outPtr : Word, encode (.hash inPtr len outPtr) = descriptor 0x01 inPtr len outPtr) ∧
  keccak256 [] =
    [0xc5, 0xd2, 0x46, 0x01, 0x86, 0xf7, 0x23, 0x3c, 0x92, 0x7e, 0x7d, 0xb2, 0xdc, 0xc7, 0x03, 0xc0,
     0xe5, 0x00, 0xb6, 0x53, 0xca, 0x82, 0x27, 0x3b, 0x7b, 0xfa, 0xd8, 0x04, 0x5d, 0x85, 0xa4, 0x70]

/-- R34: the memory accesses of a `HASH`, exhaustively: `len` reads, ascending, then 32 writes, ascending. -/
def Obligations.HashReadsInputOnceThenWritesOutputOnce : Prop :=
  ∀ (s t : State) (inPtr len outPtr : Word), exec (.hash inPtr len outPtr) s = .next t →
    ∃ digest : Vector Byte 32,
      t.bus = s.bus ++ (List.range len.toNat).map (fun j => .read s.active (inPtr.toNat + j)) ++
        (List.finRange 32).map (fun j => .write s.active (outPtr.toNat + j.val) digest[j])

/-- R46: with `len = 0` nothing is read, `in_ptr` may be anything, and the 32 output bytes are still written, once each,
ascending, with the digest of the empty input. -/
def Obligations.EmptyInputIgnoresInPtr : Prop :=
  ∀ (s : State) (p q outPtr : Word), fitsAddr s.plat.aw p = true → fitsAddr s.plat.aw q = true →
    exec (.hash p 0 outPtr) s = exec (.hash q 0 outPtr) s ∧
    ∀ t, exec (.hash p 0 outPtr) s = .next t → ∃ digest : Vector Byte 32, keccak256 [] = digest.toList ∧
      t.bus = s.bus ++ (List.finRange 32).map (fun j => .write s.active (outPtr.toNat + j.val) digest[j])

/-- R13: the result of `HASH` does not depend on what its instance held before, and afterwards every lane is unspecified. -/
def Obligations.HashIgnoresAndDiscardsTheLanes : Prop :=
  ∀ (s t : State) (e₁ e₂ : Engine) (inPtr len outPtr : Word), s.engine? = some e₁ →
    exec (.hash inPtr len outPtr) s = .next t →
    ∃ u e' e'', exec (.hash inPtr len outPtr) (s.setEngine e₂) = .next u ∧
      u.mem = t.mem ∧ u.bus = t.bus ∧ u.responses = t.responses ∧
      t.engine? = some e' ∧ u.engine? = some e'' ∧
      ∀ j : Fin 25, e'.specified[j] = false ∧ e''.specified[j] = false

/-- After a `HASH`, `RDLANE` of any lane responds with the model's free draw, whatever bits the lanes store: the digest cannot be
read with it (R159, P7; log entry 8). -/
def Obligations.LanesAfterHashAreFree : Prop :=
  ∀ (s t : State) (e' : Engine) (inPtr len outPtr : Word) (i : BitVec 5) (w : Word), i.toNat < 25 →
    exec (.hash inPtr len outPtr) s = .next t → t.engine? = some e' →
    ∃ u u', exec (.rdlane i) t = .next u ∧
      exec (.rdlane i) (t.setEngine { e' with lanes := Vector.replicate 25 w }) = .next u' ∧
      u.responses = t.responses ++ [⟨t.active, some (Config.freeWord t.draws 0)⟩] ∧ u'.responses = u.responses ∧
      u.draws = t.draws + 1

/-! ## Frames, instances, events (20, 60, 70) -/

/-- `PERMUTE`, `WRLANE` and `RDLANE` make no memory access (20_memory.md, introduction; R89, R120, R121), and leave the scratch
buffer and the other instances alone. -/
def Obligations.LaneCommandsTouchNoMemory : Prop :=
  ∀ (i : Instr) (s t : State) (e : Engine), (∀ a l o, i ≠ .hash a l o) → s.engine? = some e → exec i s = .next t →
    MemoryKept s t ∧ OutsideKept s t ∧ ∃ e', t.engine? = some e' ∧ e'.scr = e.scr

/-- No command changes another instance, the platform or the number of instances (R37, R139, R141). -/
def Obligations.CommandLeavesOtherInstancesAlone : Prop :=
  ∀ (i : Instr) (s t : State), exec i s = .next t → OutsideKept s t

/-- No command reads the lanes, the scratch buffer or the sequencing values of another instance: changing them changes
nothing of the result (R139, R141). -/
def Obligations.CommandReadsNothingOfOtherInstances : Prop :=
  ∀ (i : Instr) (s t : State) (es : List Engine), exec i s = .next t →
    es.length = s.engines.length → es[s.active]? = s.engines[s.active]? →
    (∀ k : Nat, (es[k]?).map Engine.inFlight = (s.engines[k]?).map Engine.inFlight) →
    ∃ u, exec i { s with engines := es } = .next u ∧ u.mem = t.mem ∧ u.bus = t.bus ∧
      u.responses = t.responses ∧ u.engine? = t.engine?

/-- Two `HASH` commands in flight on different instances each produce their own digest, whichever finishes first (R40, R141, P5).
The invariant is what the contract makes true while they run. -/
def Obligations.RunningHashesDoNotDisturbEachOther : Prop :=
  ∀ (s : State) (k₁ k₂ : Nat) (e₁ e₂ : Engine) (a₁ l₁ o₁ a₂ l₂ o₂ : Word), s.Inv → k₁ ≠ k₂ →
    s.engines[k₁]? = some e₁ → e₁.inFlight = some (.hash a₁ l₁ o₁) →
    s.engines[k₂]? = some e₂ → e₂.inFlight = some (.hash a₂ l₂ o₂) →
    ∃ t u, core.run 2 (s.withPending [.finish k₁, .finish k₂]) = .next t ∧
      core.run 2 (s.withPending [.finish k₂, .finish k₁]) = .next u ∧
      (∀ a, t.mem.read a = u.mem.read a) ∧
      (∀ j, j < 32 → some (t.mem.read (o₁.toNat + j)) = (keccak256 (s.mem.bytes a₁.toNat l₁.toNat))[j]?) ∧
      (∀ j, j < 32 → some (t.mem.read (o₂.toNat + j)) = (keccak256 (s.mem.bytes a₂.toNat l₂.toNat))[j]?)

/-- Another agent's store: in a buffer of a running `HASH` it is refused as V5, elsewhere in ordinary memory it stores the byte and
changes nothing else (R45 (e), R132, R158). That a store outside the address space faults and one at a device is refused is
the model's DESIGN CHOICE, log entry 17: the spec says neither. -/
def Obligations.AgentStoreRespectsRunningBuffers : Prop :=
  ∀ (s : State) (a : Nat) (v : Byte) (rest : List Event), s.pending = .agentWrite a v :: rest →
    (2 ^ s.plat.aw ≤ a → step s = .fault (.noSuchAddress a)) ∧
    (a < 2 ^ s.plat.aw → s.plat.ordinaryAt a = false → step s = .refused .deviceAccess) ∧
    (a < 2 ^ s.plat.aw → s.plat.ordinaryAt a = true →
      ((∃ bs ∈ s.allBuffers, bs.1.contains a = true ∨ bs.2.contains a = true) →
        step s = .refused (.contractViolation .sharedBuffer)) ∧
      ((∀ bs ∈ s.allBuffers, bs.1.contains a = false ∧ bs.2.contains a = false) →
        ∃ t, step s = .next t ∧ (s.mem.wf → t.mem.read a = v) ∧
          (∀ b, b ≠ a → t.mem.read b = s.mem.read b) ∧ t.engines = s.engines ∧ t.plat = s.plat ∧
          t.bus = s.bus ∧ t.responses = s.responses ∧ t.pending = rest))

/-- Another agent's load: in the output buffer of a running `HASH` it is refused as V5, elsewhere in ordinary memory, the input
buffers too, it is allowed and changes nothing (R45 (e), R132, R142, R158). That a load outside the address space faults and
one at a device is refused is the model's DESIGN CHOICE, log entry 17: the spec says neither. -/
def Obligations.AgentLoadRespectsOutputBuffers : Prop :=
  ∀ (s : State) (a : Nat) (rest : List Event), s.pending = .agentRead a :: rest →
    (2 ^ s.plat.aw ≤ a → step s = .fault (.noSuchAddress a)) ∧
    (a < 2 ^ s.plat.aw → s.plat.ordinaryAt a = false → step s = .refused .deviceAccess) ∧
    (a < 2 ^ s.plat.aw → s.plat.ordinaryAt a = true →
      ((∃ bs ∈ s.allBuffers, bs.2.contains a = true) → step s = .refused (.contractViolation .sharedBuffer)) ∧
      ((∀ bs ∈ s.allBuffers, bs.2.contains a = false) → step s = .next (s.withPending rest)))

/-- The machine after reset, for every platform and every number of instances: every instance idle, every lane unspecified, no
access made, no response given (R25, R150, R151, R153). -/
def Obligations.ResetLeavesEveryInstanceIdle : Prop :=
  ∀ (plat : Platform) (n : Nat), (State.resetOn plat n).engines.length = n ∧
    (∀ e ∈ (State.resetOn plat n).engines, e.busy = false ∧ ∀ j : Fin 25, e.specified[j] = false) ∧
    (State.resetOn plat n).bus = [] ∧ (State.resetOn plat n).responses = []

/-- A reset abandons what is in flight: no response, every instance idle with unspecified lanes, and no byte of memory changes but
those of the abandoned commands' output buffers (R150, R151). -/
def Obligations.ResetAbandonsCommandsInFlight : Prop :=
  ∀ (s : State) (rest : List Event), s.pending = .reset :: rest →
    ∃ t, step s = .next t ∧ t.engines.length = s.engines.length ∧
      (∀ e ∈ t.engines, e.busy = false ∧ ∀ j : Fin 25, e.specified[j] = false) ∧
      t.responses = s.responses ∧ t.bus = s.bus ∧ t.plat = s.plat ∧ t.pending = rest ∧
      ∀ a, (∀ bs ∈ s.allBuffers, bs.2.contains a = false) → t.mem.read a = s.mem.read a

/-- Nothing changes the platform or the number of instances (R5, R6, R37). -/
def Obligations.NoStepChangesThePlatform : Prop :=
  ∀ s t : State, step s = .next t → t.plat = s.plat ∧ t.engines.length = s.engines.length

/-- The invariant holds after reset, on every platform with any number of instances. -/
def Obligations.ResetSatisfiesTheInvariant : Prop :=
  ∀ (plat : Platform) (n : Nat), (State.resetOn plat n).Inv

/-- Every step keeps the invariant: canonical memory inside the address space, every command in flight within its contract,
every response from an instance that exists. -/
def Obligations.StepKeepsTheInvariant : Prop :=
  ∀ s t : State, s.Inv → step s = .next t → t.Inv
end

