-- ==== Sys2Proof/Laws/State.lean ====
section
/-! SUPPORT. One lemma per field per update of the state: each update changes its own field and no other. -/

namespace Sys2Proof.Machine

variable (s : State)

@[simp] theorem State.withMem_plat (m : Memory) : (s.withMem m).plat = s.plat := rfl
@[simp] theorem State.withMem_engines (m : Memory) : (s.withMem m).engines = s.engines := rfl
@[simp] theorem State.withMem_active (m : Memory) : (s.withMem m).active = s.active := rfl
@[simp] theorem State.withMem_mem (m : Memory) : (s.withMem m).mem = m := rfl
@[simp] theorem State.withMem_bus (m : Memory) : (s.withMem m).bus = s.bus := rfl
@[simp] theorem State.withMem_responses (m : Memory) : (s.withMem m).responses = s.responses := rfl
@[simp] theorem State.withMem_draws (m : Memory) : (s.withMem m).draws = s.draws := rfl
@[simp] theorem State.withMem_pending (m : Memory) : (s.withMem m).pending = s.pending := rfl

@[simp] theorem State.logBus_plat (xs : List Access) : (s.logBus xs).plat = s.plat := rfl
@[simp] theorem State.logBus_engines (xs : List Access) : (s.logBus xs).engines = s.engines := rfl
@[simp] theorem State.logBus_active (xs : List Access) : (s.logBus xs).active = s.active := rfl
@[simp] theorem State.logBus_mem (xs : List Access) : (s.logBus xs).mem = s.mem := rfl
@[simp] theorem State.logBus_bus (xs : List Access) : (s.logBus xs).bus = s.bus ++ xs := rfl
@[simp] theorem State.logBus_responses (xs : List Access) : (s.logBus xs).responses = s.responses := rfl
@[simp] theorem State.logBus_draws (xs : List Access) : (s.logBus xs).draws = s.draws := rfl
@[simp] theorem State.logBus_pending (xs : List Access) : (s.logBus xs).pending = s.pending := rfl

@[simp] theorem State.drawn_plat : (s.drawn).plat = s.plat := rfl
@[simp] theorem State.drawn_engines : (s.drawn).engines = s.engines := rfl
@[simp] theorem State.drawn_active : (s.drawn).active = s.active := rfl
@[simp] theorem State.drawn_mem : (s.drawn).mem = s.mem := rfl
@[simp] theorem State.drawn_bus : (s.drawn).bus = s.bus := rfl
@[simp] theorem State.drawn_responses : (s.drawn).responses = s.responses := rfl
@[simp] theorem State.drawn_draws : (s.drawn).draws = s.draws + 1 := rfl
@[simp] theorem State.drawn_pending : (s.drawn).pending = s.pending := rfl

@[simp] theorem State.withActive_plat (k : Nat) : (s.withActive k).plat = s.plat := rfl
@[simp] theorem State.withActive_engines (k : Nat) : (s.withActive k).engines = s.engines := rfl
@[simp] theorem State.withActive_active (k : Nat) : (s.withActive k).active = k := rfl
@[simp] theorem State.withActive_mem (k : Nat) : (s.withActive k).mem = s.mem := rfl
@[simp] theorem State.withActive_bus (k : Nat) : (s.withActive k).bus = s.bus := rfl
@[simp] theorem State.withActive_responses (k : Nat) : (s.withActive k).responses = s.responses := rfl
@[simp] theorem State.withActive_draws (k : Nat) : (s.withActive k).draws = s.draws := rfl
@[simp] theorem State.withActive_pending (k : Nat) : (s.withActive k).pending = s.pending := rfl

@[simp] theorem State.withPending_plat (evs : List Event) : (s.withPending evs).plat = s.plat := rfl
@[simp] theorem State.withPending_engines (evs : List Event) : (s.withPending evs).engines = s.engines := rfl
@[simp] theorem State.withPending_active (evs : List Event) : (s.withPending evs).active = s.active := rfl
@[simp] theorem State.withPending_mem (evs : List Event) : (s.withPending evs).mem = s.mem := rfl
@[simp] theorem State.withPending_bus (evs : List Event) : (s.withPending evs).bus = s.bus := rfl
@[simp] theorem State.withPending_responses (evs : List Event) : (s.withPending evs).responses = s.responses := rfl
@[simp] theorem State.withPending_draws (evs : List Event) : (s.withPending evs).draws = s.draws := rfl
@[simp] theorem State.withPending_pending (evs : List Event) : (s.withPending evs).pending = evs := rfl

@[simp] theorem State.setEngineAt_plat (k : Nat) (e : Engine) : (s.setEngineAt k e).plat = s.plat := rfl
@[simp] theorem State.setEngineAt_engines (k : Nat) (e : Engine) : (s.setEngineAt k e).engines = s.engines.set k e := rfl
@[simp] theorem State.setEngineAt_active (k : Nat) (e : Engine) : (s.setEngineAt k e).active = s.active := rfl
@[simp] theorem State.setEngineAt_mem (k : Nat) (e : Engine) : (s.setEngineAt k e).mem = s.mem := rfl
@[simp] theorem State.setEngineAt_bus (k : Nat) (e : Engine) : (s.setEngineAt k e).bus = s.bus := rfl
@[simp] theorem State.setEngineAt_responses (k : Nat) (e : Engine) : (s.setEngineAt k e).responses = s.responses := rfl
@[simp] theorem State.setEngineAt_draws (k : Nat) (e : Engine) : (s.setEngineAt k e).draws = s.draws := rfl
@[simp] theorem State.setEngineAt_pending (k : Nat) (e : Engine) : (s.setEngineAt k e).pending = s.pending := rfl

@[simp] theorem State.respond_plat (e : Engine) (d : Option Word) : (s.respond e d).plat = s.plat := rfl
@[simp] theorem State.respond_engines (e : Engine) (d : Option Word) : (s.respond e d).engines = s.engines.set s.active { e with inFlight := none } := rfl
@[simp] theorem State.respond_active (e : Engine) (d : Option Word) : (s.respond e d).active = s.active := rfl
@[simp] theorem State.respond_mem (e : Engine) (d : Option Word) : (s.respond e d).mem = s.mem := rfl
@[simp] theorem State.respond_bus (e : Engine) (d : Option Word) : (s.respond e d).bus = s.bus := rfl
@[simp] theorem State.respond_responses (e : Engine) (d : Option Word) : (s.respond e d).responses = s.responses ++ [⟨s.active, d⟩] := rfl
@[simp] theorem State.respond_draws (e : Engine) (d : Option Word) : (s.respond e d).draws = s.draws := rfl
@[simp] theorem State.respond_pending (e : Engine) (d : Option Word) : (s.respond e d).pending = s.pending := rfl

end Sys2Proof.Machine
end

