-- ==== Sys2Proof/Laws/Operands.lean ====
section
/-! SUPPORT. The operand forms and the contract's clauses, said once. -/

namespace Sys2Proof.Machine

theorem allBytes_iff (p : Nat → Bool) (a n : Nat) : allBytes p a n = true ↔ ∀ j, j < n → p (a + j) = true := by
  induction n generalizing a with
  | zero => simp [allBytes]
  | succ n ih =>
    simp only [allBytes, Bool.and_eq_true, ih]
    constructor
    · rintro ⟨h0, h⟩ j hj
      cases j with
      | zero => exact h0
      | succ j => have := h j (by omega); rwa [Nat.add_assoc, Nat.add_comm 1 j] at this
    · intro h
      refine ⟨h 0 (by omega), fun j hj => ?_⟩
      have := h (j + 1) (by omega)
      rwa [Nat.add_assoc, Nat.add_comm 1 j]

theorem Buffer.disjoint_iff (b c : Buffer) : b.disjoint c = true ↔
    b.len = 0 ∨ c.len = 0 ∨ b.base + b.len ≤ c.base ∨ c.base + c.len ≤ b.base := by
  simp [Buffer.disjoint]

theorem Buffer.disjoint_comm (b c : Buffer) : b.disjoint c = c.disjoint b := by
  rw [Bool.eq_iff_iff, Buffer.disjoint_iff, Buffer.disjoint_iff]; omega

theorem Buffer.contains_iff (b : Buffer) (a : Nat) : b.contains a = true ↔ b.base ≤ a ∧ a < b.base + b.len := by
  simp [Buffer.contains]

theorem buffersCompatible_comm (b c : Buffer × Buffer) : buffersCompatible b c = buffersCompatible c b := by
  simp only [buffersCompatible, Buffer.disjoint_comm c.2 b.1, Buffer.disjoint_comm c.2 b.2,
    Buffer.disjoint_comm c.1 b.2]
  ac_rfl

theorem Engine.buffers?_eq_some {e : Engine} {bs : Buffer × Buffer} : e.buffers? = some bs ↔
    ∃ a l o, e.inFlight = some (.hash a l o) ∧ bs = (inputBuffer a l, outputBuffer o) := by
  obtain ⟨lanes, specified, scr, seq, inFlight⟩ := e
  cases inFlight with
  | none => simp [Engine.buffers?]
  | some i => cases i <;> simp [Engine.buffers?, eq_comm]

/-- Which buffers stand in the list: those of the instances other than `k`. -/
theorem mem_buffersExcept {k j : Nat} {es : List Engine} {bs : Buffer × Buffer} :
    bs ∈ buffersExcept k j es ↔ ∃ n e, es[n]? = some e ∧ j + n ≠ k ∧ e.buffers? = some bs := by
  induction es generalizing j with
  | nil => simp [buffersExcept]
  | cons e es ih =>
    have tail : (∃ n e', (e :: es)[n]? = some e' ∧ j + n ≠ k ∧ e'.buffers? = some bs) ↔
        (j ≠ k ∧ e.buffers? = some bs) ∨ ∃ n e', es[n]? = some e' ∧ j + 1 + n ≠ k ∧ e'.buffers? = some bs := by
      constructor
      · rintro ⟨n, e', hn, hk, hb⟩
        cases n with
        | zero => simp only [List.getElem?_cons_zero, Option.some.injEq] at hn; subst hn; exact .inl ⟨by simpa using hk, hb⟩
        | succ n => exact .inr ⟨n, e', by simpa using hn, by omega, hb⟩
      · rintro (⟨hk, hb⟩ | ⟨n, e', hn, hk, hb⟩)
        · exact ⟨0, e, by simp, by simpa using hk, hb⟩
        · exact ⟨n + 1, e', by simpa using hn, by omega, hb⟩
    rw [tail, ← ih]
    conv_lhs => unfold buffersExcept
    split
    · next cs hcs =>
      split
      · next hjk => simp [hjk]
      · next hjk => simp only [List.mem_cons, hcs, Option.some.injEq, ne_eq, hjk, not_false_eq_true, true_and, eq_comm]
    · next hn => simp [hn]

theorem mem_othersBuffers {s : State} {bs : Buffer × Buffer} : bs ∈ s.othersBuffers ↔
    ∃ k e, s.engines[k]? = some e ∧ k ≠ s.active ∧ e.buffers? = some bs := by
  simp [State.othersBuffers, mem_buffersExcept]

/-- The clauses of the contract, as the machine judges them. -/
theorem violation?_eq_none {s : State} {a l o : Word} : violation? s a l o = none ↔
    (inputBuffer a l).base + (inputBuffer a l).len ≤ 2 ^ s.plat.aw ∧
    (outputBuffer o).base + (outputBuffer o).len ≤ 2 ^ s.plat.aw ∧
    (inputBuffer a l).disjoint (outputBuffer o) = true ∧
    allBytes s.plat.readableAt (inputBuffer a l).base (inputBuffer a l).len = true ∧
    allBytes s.plat.writableAt (outputBuffer o).base (outputBuffer o).len = true ∧
    allBytes s.plat.ordinaryAt (inputBuffer a l).base (inputBuffer a l).len = true ∧
    allBytes s.plat.ordinaryAt (outputBuffer o).base (outputBuffer o).len = true ∧
    ∀ bs ∈ s.othersBuffers, buffersCompatible (inputBuffer a l, outputBuffer o) bs = true := by
  simp only [violation?]
  repeat' split
  all_goals simp_all
  all_goals omega

/-- The contract reads the platform, which instance is addressed, and what is in flight: nothing else of the state. -/
theorem violation?_congr {s t : State} (hp : t.plat = s.plat) (ho : t.othersBuffers = s.othersBuffers) (a l o : Word) :
    violation? t a l o = violation? s a l o := by
  simp only [violation?, hp, ho]

/-- With fewer commands in flight elsewhere, a command that broke no clause still breaks none. -/
theorem commandViolation?_mono {s t : State} (hp : t.plat = s.plat)
    (hs : ∀ bs, bs ∈ t.othersBuffers → bs ∈ s.othersBuffers) (i : Instr) (h : commandViolation? s i = none) :
    commandViolation? t i = none := by
  cases i <;> simp only [commandViolation?] at *
  rw [violation?_eq_none] at *
  rw [hp]
  obtain ⟨h1, h2, h3, h4, h5, h6, h7, h8⟩ := h
  exact ⟨h1, h2, h3, h4, h5, h6, h7, fun bs hb => h8 bs (hs bs hb)⟩

end Sys2Proof.Machine
end

