-- ==== Sys2Proof/Laws/Contract.lean ====
section
/-! SUPPORT. The contract of `HASH` as a proposition and as the machine judges it are the same. -/

namespace Sys2Proof.Machine

theorem Buffer.disjoint_iff_apart {b c : Buffer} : b.disjoint c = true ↔ b.Apart c := by
  simp only [Buffer.disjoint_iff, Buffer.Apart, Buffer.contains_iff]
  constructor
  · intro h a; omega
  · intro h
    have := h (max b.base c.base)
    omega

theorem buffersCompatible_iff {b c : Buffer × Buffer} :
    buffersCompatible b c = true ↔ b.2.Apart c.1 ∧ b.2.Apart c.2 ∧ b.1.Apart c.2 := by
  simp [buffersCompatible, Buffer.disjoint_iff_apart, and_assoc]

/-- The machine finds no violation exactly when every clause of R45 holds. -/
theorem hashContract_iff {s : State} {a l o : Word} : HashContract s a l o ↔ violation? s a l o = none := by
  simp only [violation?_eq_none, Buffer.disjoint_iff_apart, allBytes_iff]
  constructor
  · intro h
    refine ⟨h.inSpace.1, h.inSpace.2, h.apart, h.readable, h.writable, h.ordinary.1, h.ordinary.2, fun bs hb => ?_⟩
    obtain ⟨k, e, he, hk, hbs⟩ := mem_othersBuffers.mp hb
    obtain ⟨i, n, p, hi, rfl⟩ := Engine.buffers?_eq_some.mp hbs
    exact buffersCompatible_iff.mpr (h.exclusive k e i n p hk he hi)
  · rintro ⟨h1, h2, h3, h4, h5, h6, h7, h8⟩
    exact ⟨h4, h5, ⟨h1, h2⟩, fun k e i n p hk he hi => buffersCompatible_iff.mp
      (h8 _ (mem_othersBuffers.mpr ⟨k, e, he, hk, Engine.buffers?_eq_some.mpr ⟨i, n, p, hi, rfl⟩⟩)), h3, h6, h7⟩

end Sys2Proof.Machine
end

