-- ==== Sys2Proof/Laws/Memory.lean ====
section
/-! SUPPORT. The laws of caller memory: a read after a write to the same address gives the byte written, a write leaves every
other address alone, and every operation keeps the canonical form. -/

namespace Sys2Proof.Machine

open Config

theorem Memory.read_cell_same (a : Nat) (v : Byte) (m : Memory) (h : ∀ c ∈ m, a < c.1) :
    (Memory.cell a v m).read a = v := by
  unfold Memory.cell
  split
  · next hv =>
    subst hv
    induction m with
    | nil => rfl
    | cons c m ih =>
      have hc := h c (by simp)
      simp only [Memory.read]
      rw [if_neg (by omega)]
      exact ih fun d hd => h d (by simp [hd])
  · simp [Memory.read]

theorem Memory.read_cell_ne {a b : Nat} (hab : a ≠ b) (v : Byte) (m : Memory) :
    (Memory.cell a v m).read b = m.read b := by
  unfold Memory.cell
  split
  · rfl
  · simp [Memory.read, hab]

theorem Memory.wf_tail {c : Host.Cell} {m : Memory} (h : Memory.wf (c :: m)) : m.wf :=
  ⟨h.1.of_cons, fun d hd => h.2 d (List.mem_cons_of_mem _ hd)⟩

theorem Memory.wf_head_lt {c : Host.Cell} {m : Memory} (h : Memory.wf (c :: m)) : ∀ d ∈ m, c.1 < d.1 :=
  (List.pairwise_cons.mp h.1).1

theorem Memory.wf_cell {a : Nat} {v : Byte} {m : Memory} (hm : m.wf) (h : ∀ c ∈ m, a < c.1) :
    (Memory.cell a v m).wf := by
  unfold Memory.cell
  split
  · exact hm
  · next hv =>
    refine ⟨List.pairwise_cons.mpr ⟨h, hm.1⟩, fun c hc => ?_⟩
    rcases List.mem_cons.mp hc with rfl | hc
    · exact hv
    · exact hm.2 c hc

theorem Memory.mem_cell {a : Nat} {v : Byte} {m : Memory} {c : Host.Cell} (h : c ∈ Memory.cell a v m) :
    c.1 = a ∨ c ∈ m := by
  unfold Memory.cell at h
  split at h
  · exact .inr h
  · rcases List.mem_cons.mp h with rfl | h
    · exact .inl rfl
    · exact .inr h

/-- Every cell after a write is the written address's or was there before. -/
theorem Memory.mem_write {m : Memory} {a : Nat} {v : Byte} {c : Host.Cell} (h : c ∈ m.write a v) :
    c.1 = a ∨ c ∈ m := by
  induction m with
  | nil => exact Memory.mem_cell h
  | cons d m ih =>
    obtain ⟨k, b⟩ := d
    simp only [Memory.write] at h
    split at h
    · exact Memory.mem_cell h
    · split at h
      · rcases Memory.mem_cell h with h | h
        · exact .inl h
        · exact .inr (List.mem_cons_of_mem _ h)
      · rcases List.mem_cons.mp h with rfl | h
        · exact .inr List.mem_cons_self
        · rcases ih h with h | h
          · exact .inl h
          · exact .inr (List.mem_cons_of_mem _ h)

theorem Memory.wf_write {m : Memory} (hm : m.wf) (a : Nat) (v : Byte) : (m.write a v).wf := by
  induction m with
  | nil => exact Memory.wf_cell hm (by simp)
  | cons c m ih =>
    obtain ⟨k, b⟩ := c
    have hlt := Memory.wf_head_lt hm
    simp only [Memory.write]
    split
    · next hak =>
      refine Memory.wf_cell hm fun d hd => ?_
      rcases List.mem_cons.mp hd with rfl | hd
      · exact hak
      · exact Nat.lt_trans hak (hlt d hd)
    · split
      · next _ hak => exact Memory.wf_cell (Memory.wf_tail hm) fun d hd => hak ▸ hlt d hd
      · next hak hne =>
        have ih' := ih (Memory.wf_tail hm)
        refine ⟨List.pairwise_cons.mpr ⟨fun d hd => ?_, ih'.1⟩, fun d hd => ?_⟩
        · rcases Memory.mem_write hd with h | h
          · simp only [h]; omega
          · exact hlt d h
        · rcases List.mem_cons.mp hd with rfl | hd
          · exact hm.2 _ List.mem_cons_self
          · exact ih'.2 d hd

theorem Memory.read_write_same {m : Memory} (hm : m.wf) (a : Nat) (v : Byte) : (m.write a v).read a = v := by
  induction m with
  | nil => exact Memory.read_cell_same a v [] (by simp)
  | cons c m ih =>
    obtain ⟨k, b⟩ := c
    have hlt := Memory.wf_head_lt hm
    simp only [Memory.write]
    split
    · next hak =>
      refine Memory.read_cell_same a v _ fun d hd => ?_
      rcases List.mem_cons.mp hd with rfl | hd
      · exact hak
      · exact Nat.lt_trans hak (hlt d hd)
    · split
      · next _ hak => exact Memory.read_cell_same a v m fun d hd => hak ▸ hlt d hd
      · next _ hne =>
        simp only [Memory.read]
        rw [if_neg (fun h => hne h.symm)]
        exact ih (Memory.wf_tail hm)

theorem Memory.read_write_ne (m : Memory) {a b : Nat} (hab : a ≠ b) (v : Byte) :
    (m.write a v).read b = m.read b := by
  induction m with
  | nil => exact Memory.read_cell_ne hab v []
  | cons c m ih =>
    obtain ⟨k, w⟩ := c
    simp only [Memory.write]
    split
    · exact Memory.read_cell_ne hab v _
    · split
      · next _ hak => rw [Memory.read_cell_ne hab]; simp [Memory.read, ← hak, hab]
      · simp only [Memory.read, ih]

theorem Memory.wf_writeBytes {m : Memory} (hm : m.wf) (a : Nat) (bs : List Byte) : (m.writeBytes a bs).wf := by
  induction bs generalizing m a with
  | nil => exact hm
  | cons b bs ih => exact ih (Memory.wf_write hm a b) (a + 1)

/-- Every cell after a wide write is in the written range or was there before. -/
theorem Memory.mem_writeBytes {m : Memory} {a : Nat} {bs : List Byte} {c : Host.Cell}
    (h : c ∈ m.writeBytes a bs) : (a ≤ c.1 ∧ c.1 < a + bs.length) ∨ c ∈ m := by
  induction bs generalizing m a with
  | nil => exact .inr h
  | cons b bs ih =>
    simp only [List.length_cons]
    rcases ih h with h | h
    · exact .inl ⟨by omega, by omega⟩
    · rcases Memory.mem_write h with h | h
      · exact .inl ⟨by omega, by omega⟩
      · exact .inr h

theorem Memory.read_writeBytes_outside (m : Memory) {a c : Nat} {bs : List Byte}
    (h : c < a ∨ a + bs.length ≤ c) : (m.writeBytes a bs).read c = m.read c := by
  induction bs generalizing m a with
  | nil => rfl
  | cons b bs ih =>
    simp only [List.length_cons] at h
    simp only [Memory.writeBytes]
    rw [ih _ (by omega), Memory.read_write_ne _ (by omega)]

theorem Memory.read_writeBytes_inside {m : Memory} (hm : m.wf) {a j : Nat} {bs : List Byte}
    (h : j < bs.length) : (m.writeBytes a bs).read (a + j) = bs[j] := by
  induction bs generalizing m a j with
  | nil => simp at h
  | cons b bs ih =>
    simp only [Memory.writeBytes]
    cases j with
    | zero =>
      rw [Memory.read_writeBytes_outside _ (by omega)]
      simpa using Memory.read_write_same hm a b
    | succ j =>
      have := ih (Memory.wf_write hm a b) (a := a + 1) (j := j) (by simpa using h)
      simpa [Nat.add_assoc, Nat.add_comm 1 j] using this

@[simp] theorem Memory.length_bytes (m : Memory) (a n : Nat) : (m.bytes a n).length = n := by
  simp [Memory.bytes]

end Sys2Proof.Machine
end

