-- ==== Sys2Proof/Laws/Ops.lean ====
section
/-! SUPPORT. What each shared operation can do, said once: the addressed instance, the lane operand, accesses on the memory
channel, the meanings of the four commands. -/

namespace Sys2Proof.Machine

open Host

/-! ### The addressed instance and the lane operand -/

theorem onEngine_some {s : State} {e : Engine} (h : s.engine? = some e)
    (f : Engine → Outcome State Fault Refusal) : onEngine s f = f e := by
  simp [onEngine, h]

theorem onEngine_next {s t : State} {f : Engine → Outcome State Fault Refusal} (h : onEngine s f = .next t) :
    ∃ e, s.engine? = some e ∧ f e = .next t := by
  unfold onEngine at h
  split at h
  · next e he => exact ⟨e, he, h⟩
  · cases h

theorem engine?_lt {s : State} {e : Engine} (h : s.engine? = some e) : s.active < s.engines.length :=
  (List.getElem?_eq_some_iff.mp h).1

theorem onLane_lt {i : BitVec 5} (h : i.toNat < 25) (f : Fin 25 → Outcome State Fault Refusal) :
    onLane i f = f ⟨i.toNat, h⟩ := by
  simp [onLane, laneIndex?, h]

theorem onLane_ge {i : BitVec 5} (h : 25 ≤ i.toNat) (f : Fin 25 → Outcome State Fault Refusal) :
    onLane i f = .refused (.reserved .laneIndex) := by
  simp [onLane, laneIndex?, Nat.not_lt.mpr h]

theorem onLane_next {i : BitVec 5} {t : State} {f : Fin 25 → Outcome State Fault Refusal}
    (h : onLane i f = .next t) : ∃ hi : i.toNat < 25, f ⟨i.toNat, hi⟩ = .next t := by
  by_cases hi : i.toNat < 25
  · exact ⟨hi, by rwa [onLane_lt hi] at h⟩
  · rw [onLane_ge (Nat.not_lt.mp hi)] at h; cases h

/-! ### The memory channel -/

theorem memRead_fst (a n : Nat) (s : State) : (memRead a n s).1 = Vector.ofFn fun j : Fin n => s.mem.read (a + j.val) :=
  rfl

theorem memRead_snd (a n : Nat) (s : State) :
    (memRead a n s).2 = s.logBus ((List.range n).map fun j => .read s.active (a + j)) := rfl

/-- The accesses of a wide write: one per byte, ascending (R35). -/
theorem memWrite_eq (a : Nat) (bs : List Byte) (s : State) :
    memWrite a bs s = (s.withMem (s.mem.writeBytes a bs)).logBus
      ((List.range bs.length).map fun j => .write s.active (a + j) (bs.getD j 0)) := by
  induction bs generalizing a s with
  | nil => simp [memWrite, Memory.writeBytes, State.withMem, State.logBus]
  | cons b bs ih =>
    simp only [memWrite, ih, List.length_cons, List.range_succ_eq_map, List.map_cons, List.map_map]
    simp [memWriteByte, Memory.writeBytes, State.withMem, State.logBus, Function.comp_def, Nat.add_assoc,
      Nat.add_comm 1]

theorem length_digestBytes (A : Lanes) : (digestBytes A).length = 32 := by
  simp [digestBytes]

/-! ### One hash computation touches memory only at the output buffer -/

theorem absorbOne_st (p : Absorbing) :
    (absorbOne p).st = p.st.logBus ((List.range 136).map fun j => .read p.st.active (p.cur + j)) := rfl

/-- The loop only appends to the record of the memory channel. -/
theorem absorbLoop_st (n : Nat) (p : Absorbing) : ∃ xs, (absorbLoop n p).st = p.st.logBus xs := by
  induction n generalizing p with
  | zero => exact ⟨[], by simp [absorbLoop, State.logBus]⟩
  | succ n ih =>
    unfold absorbLoop
    split
    · obtain ⟨xs, h⟩ := ih (absorbOne p)
      refine ⟨(List.range 136).map (fun j => .read p.st.active (p.cur + j)) ++ xs, ?_⟩
      rw [h, absorbOne_st]
      simp [State.logBus, List.append_assoc]
    · exact ⟨[], by simp [State.logBus]⟩

theorem squeeze_logBus (o : Nat) (A : Lanes) (s : State) (ys : List Access) :
    squeeze o A (s.logBus ys) = (s.withMem (s.mem.writeBytes o (digestBytes A))).logBus
      (ys ++ (List.range 32).map fun j => .write s.active (o + j) ((digestBytes A).getD j 0)) := by
  simp [squeeze, memWrite_eq, length_digestBytes, State.logBus, State.withMem]

theorem logBus_logBus (s : State) (xs ys : List Access) : (s.logBus xs).logBus ys = s.logBus (xs ++ ys) := by
  simp [State.logBus, List.append_assoc]

/-- The bytes are read before any is written: filling only appends to the record of the memory channel. -/
theorem hash_reads (a l : Nat) (s : State) :
    ∃ ys, (fill (absorbLoop l ⟨a, l, initLanes, s⟩).cur (absorbLoop l ⟨a, l, initLanes, s⟩).rem
      (absorbLoop l ⟨a, l, initLanes, s⟩).st).2 = s.logBus ys := by
  obtain ⟨xs, h⟩ := absorbLoop_st l ⟨a, l, initLanes, s⟩
  simp only [fill, memRead_snd, h, logBus_logBus]
  exact ⟨_, rfl⟩

/-- What a hash computation can do to the machine: store 32 bytes at the output address and make accesses. -/
theorem hashSteps_eq (a l o : Nat) (s : State) :
    ∃ bs xs, bs.length = 32 ∧ hashSteps a l o s = (s.withMem (s.mem.writeBytes o bs)).logBus xs := by
  obtain ⟨ys, h⟩ := hash_reads a l s
  simp only [hashSteps, h, squeeze_logBus]
  exact ⟨_, _, length_digestBytes _, rfl⟩

/-! ### The meanings -/

theorem execPermute_some {s : State} {e : Engine} (h : s.engine? = some e) :
    execPermute s = .next (s.drawn.respond (e.permuted s.draws) none) := onEngine_some h _

theorem execPermute_next {s t : State} (h : execPermute s = .next t) :
    ∃ e, s.engine? = some e ∧ t = s.drawn.respond (e.permuted s.draws) none := by
  obtain ⟨e, he, h⟩ := onEngine_next h
  cases h
  exact ⟨e, he, rfl⟩

theorem execWrlane_next {i : BitVec 5} {v : Word} {s t : State} (h : execWrlane i v s = .next t) :
    ∃ e, s.engine? = some e ∧ ∃ hi : i.toNat < 25, t = s.respond (e.writeLane ⟨i.toNat, hi⟩ v) none := by
  obtain ⟨e, he, h⟩ := onEngine_next h
  obtain ⟨hi, h⟩ := onLane_next h
  cases h
  exact ⟨e, he, hi, rfl⟩

theorem execRdlane_next {i : BitVec 5} {s t : State} (h : execRdlane i s = .next t) :
    ∃ e, s.engine? = some e ∧ ∃ hi : i.toNat < 25,
      (e.specified[i.toNat] = true ∧ t = s.respond e (some e.lanes[i.toNat])) ∨
      (e.specified[i.toNat] = false ∧ t = s.drawn.respond e (some (Config.freeWord s.draws 0))) := by
  obtain ⟨e, he, h⟩ := onEngine_next h
  obtain ⟨hi, h⟩ := onLane_next h
  refine ⟨e, he, hi, ?_⟩
  split at h
  · next hs => cases h; exact .inl ⟨hs, rfl⟩
  · next hs => cases h; exact .inr ⟨by simpa using hs, rfl⟩

theorem execHash_next {a l o : Word} {s t : State} (h : execHash a l o s = .next t) :
    ∃ e, s.engine? = some e ∧ (Instr.hash a l o).wf s.plat.aw = true ∧ violation? s a l o = none ∧
      t = (hashSteps a.toNat l.toNat o.toNat s).drawn.respond (e.discarded s.draws) none := by
  obtain ⟨e, he, h⟩ := onEngine_next h
  split at h
  · cases h
  · next hw =>
    split at h
    · cases h
    · next hv => cases h; exact ⟨e, he, by simpa using hw, hv, rfl⟩

theorem execHash_some {a l o : Word} {s : State} {e : Engine} (he : s.engine? = some e)
    (hw : (Instr.hash a l o).wf s.plat.aw = true) (hv : violation? s a l o = none) :
    execHash a l o s = .next ((hashSteps a.toNat l.toNat o.toNat s).drawn.respond (e.discarded s.draws) none) := by
  simp [execHash, onEngine_some he, hw, hv]

/-- A command on an instance that exists completes, when its operands are well formed and it breaks no contract. -/
theorem exec_completes {i : Instr} {s : State} {e : Engine} (he : s.engine? = some e) (hw : i.wf s.plat.aw = true)
    (hv : commandViolation? s i = none) : ∃ t, exec i s = .next t := by
  cases i with
  | hash a l o => exact ⟨_, execHash_some he hw hv⟩
  | permute => exact ⟨_, execPermute_some he⟩
  | wrlane j v =>
    have hj : j.toNat < 25 := by simpa [Instr.wf, laneOk] using hw
    exact ⟨s.respond (e.writeLane ⟨j.toNat, hj⟩ v) none, by
      simp only [exec, execWrlane, onEngine_some he, onLane_lt hj]⟩
  | rdlane j =>
    have hj : j.toNat < 25 := by simpa [Instr.wf, laneOk] using hw
    simp only [exec, execRdlane, onEngine_some he, onLane_lt hj]
    split <;> exact ⟨_, rfl⟩

/-- What any command can do, said once: the machine changes at most its memory, its record of accesses and its draw counter,
then the addressed instance answers. -/
theorem exec_next {i : Instr} {s t : State} (h : exec i s = .next t) :
    ∃ e e' d m xs n, s.engine? = some e ∧
      t = State.respond { s with mem := m, bus := s.bus ++ xs, draws := n } e' d ∧
      (d.isSome ↔ ∃ j, i = .rdlane j) ∧
      (m = s.mem ∧ xs = [] ∨ ∃ a l o bs, i = .hash a l o ∧ bs.length = 32 ∧ violation? s a l o = none ∧
        m = s.mem.writeBytes o.toNat bs) := by
  cases i with
  | hash a l o =>
    obtain ⟨e, he, _, hv, rfl⟩ := execHash_next h
    obtain ⟨bs, xs, hbs, hst⟩ := hashSteps_eq a.toNat l.toNat o.toNat s
    refine ⟨e, e.discarded s.draws, none, s.mem.writeBytes o.toNat bs, xs, s.draws + 1, he, ?_, by simp,
      .inr ⟨a, l, o, bs, rfl, hbs, hv, rfl⟩⟩
    rw [hst]; rfl
  | permute =>
    obtain ⟨e, he, rfl⟩ := execPermute_next h
    exact ⟨e, e.permuted s.draws, none, s.mem, [], s.draws + 1, he, by simp [State.respond, State.drawn], by simp,
      .inl ⟨rfl, rfl⟩⟩
  | wrlane j v =>
    obtain ⟨e, he, hj, rfl⟩ := execWrlane_next h
    exact ⟨e, e.writeLane ⟨j.toNat, hj⟩ v, none, s.mem, [], s.draws, he, by simp [State.respond], by simp,
      .inl ⟨rfl, rfl⟩⟩
  | rdlane j =>
    obtain ⟨e, he, hj, ⟨_, rfl⟩ | ⟨_, rfl⟩⟩ := execRdlane_next h
    · exact ⟨e, e, some e.lanes[j.toNat], s.mem, [], s.draws, he, by simp [State.respond], by simp, .inl ⟨rfl, rfl⟩⟩
    · exact ⟨e, e, some (Config.freeWord s.draws 0), s.mem, [], s.draws + 1, he, by simp [State.respond, State.drawn], by simp,
        .inl ⟨rfl, rfl⟩⟩

end Sys2Proof.Machine
end

