-- ==== Sys2Proof/Laws/PerInstr.lean ====
section
/-! SUPPORT. Per-constructor facts about the encoding, for the case splits over `Instr`. -/

namespace Sys2Proof.Laws.Header

/-- The three header fields of an encoded command are its opcode, its lane index (0 where it has none) and zero (R51, R52). -/
def Statement (i : Instr) : Prop :=
  opField (encode i) = opcodeOf i ∧ rsvField (encode i) = 0 ∧
    idxField (encode i) = (match i with | .hash _ _ _ => 0 | .permute => 0 | .wrlane j _ => j | .rdlane j => j)

theorem fields_of_descriptor (op : BitVec 8) (idx : BitVec 5) (w1 w2 w3 : Word) :
    opField (descriptor (header op idx) w1 w2 w3) = op ∧ rsvField (descriptor (header op idx) w1 w2 w3) = 0 ∧
      idxField (descriptor (header op idx) w1 w2 w3) = idx := by
  refine ⟨?_, ?_, ?_⟩ <;> apply BitVec.eq_of_getLsbD_eq <;> intro i hi
  · simp only [opField, descriptor, header, BitVec.getLsbD_extractLsb', BitVec.getLsbD_append]
    simp [hi, show i < 64 by omega]
  · simp only [rsvField, descriptor, header, BitVec.getLsbD_extractLsb', BitVec.getLsbD_append]
    simp [show 13 + i < 64 by omega, show ¬ (13 + i < 8) by omega, show ¬ (13 + i - 8 < 5) by omega]
  · simp only [idxField, descriptor, header, BitVec.getLsbD_extractLsb', BitVec.getLsbD_append]
    simp [hi, show 8 + i < 64 by omega, show ¬ (8 + i < 8) by omega, show 8 + i - 8 = i by omega]

theorem hash (a l o : Word) : Statement (.hash a l o) := fields_of_descriptor _ _ _ _ _
theorem permute : Statement .permute := fields_of_descriptor _ _ _ _ _
theorem wrlane (i : BitVec 5) (v : Word) : Statement (.wrlane i v) := fields_of_descriptor _ _ _ _ _
theorem rdlane (i : BitVec 5) : Statement (.rdlane i) := fields_of_descriptor _ _ _ _ _

end Sys2Proof.Laws.Header

namespace Sys2Proof.Laws

/-! ### The operand words of a descriptor (R51) -/

theorem descWord_one (w0 w1 w2 w3 : Word) : descWord (descriptor w0 w1 w2 w3) 1 = w1 := by
  apply BitVec.eq_of_getLsbD_eq
  intro i hi
  simp only [descWord, descriptor, BitVec.getLsbD_extractLsb', BitVec.getLsbD_append]
  simp [hi, show ¬ (64 + i < 64) by omega]

theorem descWord_two (w0 w1 w2 w3 : Word) : descWord (descriptor w0 w1 w2 w3) 2 = w2 := by
  apply BitVec.eq_of_getLsbD_eq
  intro i hi
  simp only [descWord, descriptor, BitVec.getLsbD_extractLsb', BitVec.getLsbD_append]
  simp [hi, show ¬ (128 + i < 64) by omega, show ¬ (128 + i - 64 < 64) by omega,
    show 128 + i - 64 - 64 = i by omega]

theorem descWord_three (w0 w1 w2 w3 : Word) : descWord (descriptor w0 w1 w2 w3) 3 = w3 := by
  apply BitVec.eq_of_getLsbD_eq
  intro i hi
  simp only [descWord, descriptor, BitVec.getLsbD_extractLsb', BitVec.getLsbD_append]
  simp [hi, show ¬ (192 + i < 64) by omega, show ¬ (192 + i - 64 < 64) by omega,
    show ¬ (192 + i - 64 - 64 < 64) by omega, show 192 + i - 64 - 64 - 64 = i by omega]

/-- What the decoder accepts, the operand constraints admit (R53, R54). -/
theorem decode_wf {aw : Nat} {d : Descriptor} {i : Instr} (h : decode aw d = .ok i) : i.wf aw = true := by
  unfold decode at h
  repeat' split at h
  all_goals cases h
  all_goals simp_all [Instr.wf]

end Sys2Proof.Laws
end

