-- ==== Sys2Proof/Laws/Step.lean ====
section
/-! SUPPORT. What issuing a command, one step and a run of steps can do, said once. -/

namespace Sys2Proof.Machine

open Host

/-- An accepted command: the instance exists and was idle, the descriptor decodes, the instance is busy with it. -/
theorem accept_ok {k : Nat} {d : Descriptor} {s s' : State} {i : Instr} (h : accept k d s = .ok (i, s')) :
    ∃ e, s.engines[k]? = some e ∧ e.inFlight = none ∧ decode s.plat.aw d = .ok i ∧
      s' = (s.setEngineAt k { e with inFlight := some i }).withActive k := by
  unfold accept at h
  split at h
  · cases h
  · next e he =>
    split at h
    · cases h
    · next hb =>
      split at h
      · cases h
      · next j hj =>
        cases h
        exact ⟨e, he, by simpa [Engine.busy] using hb, hj, rfl⟩

theorem accept_of {k : Nat} {d : Descriptor} {s : State} {e : Engine} {i : Instr} (he : s.engines[k]? = some e)
    (hb : e.inFlight = none) (hd : decode s.plat.aw d = .ok i) :
    accept k d s = .ok (i, (s.setEngineAt k { e with inFlight := some i }).withActive k) := by
  simp [accept, he, Engine.busy, hb, hd]

/-- What abandoning commands can do: store free bytes in their output buffers and draw. -/
theorem abandonOutputs_spec (bs : List (Buffer × Buffer)) (s : State) :
    ∃ m n, abandonOutputs bs s = { s with mem := m, draws := n } ∧ (s.mem.wf → m.wf) ∧
      (∀ c ∈ m, c ∈ s.mem ∨ ∃ b ∈ bs, b.2.contains c.1 = true) ∧
      ∀ a, (∀ b ∈ bs, b.2.contains a = false) → m.read a = s.mem.read a := by
  induction bs generalizing s with
  | nil => exact ⟨s.mem, s.draws, rfl, id, fun c hc => .inl hc, fun _ _ => rfl⟩
  | cons b bs ih =>
    obtain ⟨m, n, he, hw, hc, hr⟩ := ih ((s.withMem (s.mem.writeBytes b.2.base (freeBytes s.draws b.2.len))).drawn)
    have hlen : (freeBytes s.draws b.2.len).length = b.2.len := by simp [freeBytes]
    refine ⟨m, n, by simp only [abandonOutputs, he]; rfl, fun h => hw (Memory.wf_writeBytes h _ _),
      fun c hcm => ?_, fun a ha => ?_⟩
    · rcases hc c hcm with h | ⟨b', hb', h⟩
      · rcases Memory.mem_writeBytes h with h | h
        · refine .inr ⟨b, List.mem_cons_self, ?_⟩
          rw [Buffer.contains_iff]
          omega
        · exact .inl h
      · exact .inr ⟨b', List.mem_cons_of_mem _ hb', h⟩
    · rw [hr a fun b' hb' => ha b' (List.mem_cons_of_mem _ hb')]
      refine Memory.read_writeBytes_outside _ ?_
      have := ha b List.mem_cons_self
      rw [Bool.eq_false_iff, ne_eq, Buffer.contains_iff] at this
      omega

/-- The first busy instance: it exists, has a command in flight, and every instance before it is idle. -/
theorem firstBusy?_eq_some {s : State} {k : Nat} (h : s.firstBusy? = some k) :
    ∃ e i, s.engines[k]? = some e ∧ e.inFlight = some i ∧
      ∀ j < k, ∀ e', s.engines[j]? = some e' → e'.inFlight = none := by
  obtain ⟨hk, hb, hl⟩ := List.findIdx?_eq_some_iff_getElem.mp h
  obtain ⟨i, hi⟩ := Option.isSome_iff_exists.mp hb
  refine ⟨_, i, List.getElem?_eq_getElem hk, hi, fun j hj e' he' => ?_⟩
  obtain ⟨_, rfl⟩ := List.getElem?_eq_some_iff.mp he'
  simpa using hl j hj

theorem firstBusy?_eq_none {s : State} : s.firstBusy? = none ↔ ∀ e ∈ s.engines, e.inFlight = none := by
  simp [State.firstBusy?, List.findIdx?_eq_none_iff]

/-- What letting a command finish can do: nothing on an idle instance, else the command in flight is executed. -/
theorem finishCommand_next {k : Nat} {s t : State} (h : finishCommand k s = .next t) :
    ∃ e, s.engines[k]? = some e ∧
      (e.inFlight = none ∧ t = s ∨ ∃ i, e.inFlight = some i ∧ exec i (s.withActive k) = .next t) := by
  unfold finishCommand at h
  split at h
  · cases h
  · next e he =>
    refine ⟨e, he, ?_⟩
    split at h
    · next hn => cases h; exact .inl ⟨hn, rfl⟩
    · next i hi => exact .inr ⟨i, hi, h⟩

theorem agentAccess_next {s t done : State} {a : Nat} {p : Buffer × Buffer → Bool}
    (h : agentAccess s a p done = .next t) :
    t = done ∧ s.plat.inSpace a = true ∧ s.plat.ordinaryAt a = true ∧ s.allBuffers.any p = false := by
  unfold agentAccess at h
  split at h
  · cases h
  · split at h
    · cases h
    · split at h
      · cases h
      · cases h; simp_all

/-- Everything a step that answers a next state can have done. -/
theorem step_cases {s t : State} (h : step s = .next t) :
    (s.pending = [] ∧
      ((t = s ∧ ∀ e ∈ s.engines, e.inFlight = none) ∨
       ∃ k e i, s.firstBusy? = some k ∧ s.engines[k]? = some e ∧ e.inFlight = some i ∧
        exec i (s.withActive k) = .next t)) ∨
    ∃ ev rest, s.pending = ev :: rest ∧
      ((∃ k d i s', ev = .command k d ∧ accept k d (s.withPending rest) = .ok (i, s') ∧ exec i s' = .next t) ∨
       (∃ k d i, ev = .issue k d ∧ accept k d (s.withPending rest) = .ok (i, t) ∧ commandViolation? t i = none) ∨
       (∃ k e, ev = .finish k ∧ s.engines[k]? = some e ∧
         (e.inFlight = none ∧ t = s.withPending rest ∨
          ∃ i, e.inFlight = some i ∧ exec i ((s.withPending rest).withActive k) = .next t)) ∨
       (∃ a v, ev = .agentWrite a v ∧ agentWrite a v (s.withPending rest) = .next t) ∨
       (∃ a, ev = .agentRead a ∧ agentRead a (s.withPending rest) = .next t) ∨
       (ev = .reset ∧ t = resetAll (s.withPending rest))) := by
  unfold step nextEvent at h
  split at h
  · next hp =>
    refine .inl ⟨hp, ?_⟩
    split at h
    · next k hk =>
      obtain ⟨e, i, he, hi, -⟩ := firstBusy?_eq_some hk
      simp only [finishCommand, he, hi] at h
      exact .inr ⟨k, e, i, hk, he, hi, h⟩
    · next hn => cases h; exact .inl ⟨rfl, firstBusy?_eq_none.mp hn⟩
  · next ev rest hp =>
    refine .inr ⟨ev, rest, hp, ?_⟩
    cases ev with
    | command k d =>
      left
      simp only [onEvent, runCommand] at h
      split at h
      · cases h
      · next i s' ha => exact ⟨k, d, i, s', rfl, ha, h⟩
    | issue k d =>
      right; left
      simp only [onEvent, issueCommand] at h
      split at h
      · cases h
      · next i s' ha =>
        split at h
        · cases h
        · next hv => cases h; exact ⟨k, d, i, rfl, ha, hv⟩
    | finish k =>
      right; right; left
      obtain ⟨e, he, h⟩ := finishCommand_next h
      exact ⟨k, e, rfl, he, h⟩
    | agentWrite a v => exact .inr (.inr (.inr (.inl ⟨a, v, rfl, h⟩)))
    | agentRead a => exact .inr (.inr (.inr (.inr (.inl ⟨a, rfl, h⟩))))
    | reset =>
      simp only [onEvent] at h
      cases h
      exact .inr (.inr (.inr (.inr (.inr ⟨rfl, rfl⟩))))

/-- A run goes on from the state its first step answers. -/
theorem run_succ {n : Nat} {s s₁ : State} (h : step s = .next s₁) : core.run (n + 1) s = core.run n s₁ := by
  have h' : core.step s = .next s₁ := h
  simp only [Host.Core.run, h']

/-- A run that answers a next state answered one at its first step. -/
theorem run_succ_next {n : Nat} {s t : State} (h : core.run (n + 1) s = .next t) :
    ∃ s₁, step s = .next s₁ ∧ core.run n s₁ = .next t := by
  simp only [Host.Core.run] at h
  split at h
  · next s₁ hs => exact ⟨s₁, hs, h⟩
  · cases h
  · cases h

end Sys2Proof.Machine
end

