-- ==== Sys2Proof/Tests/Slice0.lean ====
section
/-! SUPPORT. Tests with expected results taken from the spec's tables and examples (95_test_vectors.md), and a witness for the
hypotheses of every statement that has some. -/

-- One theorem after the other: elaborated side by side, this many kernel evaluations ask for more threads than the check's
-- memory limit has room for.
set_option Elab.async false

namespace Sys2Proof.Tests

open Sys2Proof Sys2Proof.Machine Host

/-! ### The platform of T17, with a device window beside it, and two instances -/

def plat17 : Platform where
  aw := 64
  regions := [⟨0x1000, 0x1000, true, true, .ordinary⟩, ⟨0x8000, 0x100, true, true, .device⟩]

/-- Two idle instances; "abc" at 0x1800. -/
def two : State := { State.resetOn plat17 2 with mem := [(0x1800, 0x61), (0x1801, 0x62), (0x1802, 0x63)] }

/-- An instance whose 25 lanes are specified and hold 0. -/
def loaded : Engine := { Engine.reset with specified := Vector.replicate 25 true }

def twoLoaded : State := two.setEngineAt 0 loaded

/-- Both instances with a `HASH` in flight: "abc" to 0x1000, the empty input to 0x1100. -/
def running : State :=
  (two.setEngineAt 0 { Engine.reset with inFlight := some (.hash 0x1800 3 0x1000) }).setEngineAt 1
    { Engine.reset with inFlight := some (.hash 0 0 0x1100) }

def answersNext (o : Outcome State Fault Refusal) : Bool :=
  match o with
  | .next _ => true
  | _ => false

def refusal? (o : Outcome State Fault Refusal) : Option Refusal :=
  match o with
  | .refused r => some r
  | _ => none

def after (o : Outcome State Fault Refusal) : State :=
  match o with
  | .next t => t
  | _ => State.reset

/-! ### WellFormed: an ill-formed term for each check (R53, R54) -/

theorem test_wf_accepts : (Instr.hash 0xFFFF 0xFFFF 0xFFFF).wf 16 = true ∧ (Instr.wrlane 24 0).wf 64 = true := by decide
theorem test_wf_in_ptr : (Instr.hash 0x10000 0 0).wf 16 = false := by decide
theorem test_wf_len : (Instr.hash 0 0x10000 0).wf 16 = false := by decide
theorem test_wf_out_ptr : (Instr.hash 0 0 0x10000).wf 16 = false := by decide
theorem test_wf_wrlane : (Instr.wrlane 25 0).wf 64 = false := by decide
theorem test_wf_rdlane : (Instr.rdlane 31).wf 64 = false := by decide

/-! ### Decoding: T15 and the descriptors of P2, P3, written out from R51 and R52 -/

theorem test_decode_hash :
    decode 64 0x0000000000003000000000000000000300000000000020000000000000000001 = .ok (.hash 0x2000 3 0x3000) := by
  decide
theorem test_decode_hash_idx :
    decode 64 0x0000000000003000000000000000000300000000000020000000000000000101 = .error .laneIndex := by decide
theorem test_decode_hash_rsv :
    decode 64 0x0000000000003000000000000000000300000000000020000000000000002001 = .error .reservedBits := by decide
theorem test_decode_hash_at_aw : decode 16 0xFFFF0000000000000001 = .ok (.hash 0xFFFF 0 0) := by decide
theorem test_decode_hash_above_aw : decode 16 0x100000000000000000001 = .error .addressBits := by decide
theorem test_decode_permute : decode 64 0x2 = .ok .permute := by decide
theorem test_decode_permute_w1 : decode 64 0x10000000000000002 = .error .operandWord := by decide
theorem test_decode_wrlane : decode 64 0xDEADBEEF000000010000000000001803 = .ok (.wrlane 24 0xDEADBEEF00000001) := by
  decide
theorem test_decode_wrlane_25 : decode 64 0xDEADBEEF000000010000000000001903 = .error .laneIndex := by decide
theorem test_decode_wrlane_w2 :
    decode 64 0x1DEADBEEF000000010000000000001803 = .error .operandWord := by decide
theorem test_decode_rdlane : decode 64 0x1804 = .ok (.rdlane 24) := by decide
theorem test_decode_rdlane_31 : decode 64 0x1F04 = .error .laneIndex := by decide
theorem test_decode_opcodes : decode 64 0x0 = .error .opcode ∧ decode 64 0x5 = .error .opcode ∧
    decode 64 0xFF = .error .opcode := by decide
theorem test_encode : encode (.hash 0x2000 3 0x3000) =
      0x0000000000003000000000000000000300000000000020000000000000000001 ∧
    encode .permute = 0x2 ∧ encode (.wrlane 24 0xDEADBEEF00000001) = 0xDEADBEEF000000010000000000001803 ∧
    encode (.rdlane 24) = 0x1804 := by decide
theorem test_tableWord : decodeTableWord 64 0x2 = some .permute ∧ decodeTableWord 256 0x0 = none := by decide

/-! ### Primitives: T1, T9 -/

theorem test_rotl64 : rotl64 0x0123456789ABCDEF 4 = 0x123456789ABCDEF0 ∧ rotl64 0x8000000000000000 1 = 1 ∧
    rotl64 0x0123456789ABCDEF 63 = 0x8091A2B3C4D5E6F7 ∧ rotl64 0x0123456789ABCDEF 0 = 0x0123456789ABCDEF := by decide
theorem test_load64le : load64le #v[0x61, 0x62, 0x63, 1, 0, 0, 0, 0] = 0x0000000001636261 := by decide
theorem test_store64le : store64le 0x4FA945EA7A65034E = #v[0x4e, 0x03, 0x65, 0x7a, 0xea, 0x45, 0xa9, 0x4f] := by decide

/-! ### The permutation: T2 (b), T3 (b), T4 (b), T5 (b), T6 -/

/-- The state `A[i] = i + 1`. -/
def rising : Lanes := Vector.ofFn fun i : Fin 25 => BitVec.ofNat 64 (i.val + 1)

theorem test_theta : (theta rising).toList.map BitVec.toNat =
    [0x10, 0x0D, 0x1D, 0x1D, 0x1F, 0x17, 0x08, 0x16, 0x10, 0x10, 0x1A, 0x03, 0x13, 0x17, 0x15, 0x01, 0x1E, 0x0C,
     0x0A, 0x0E, 0x04, 0x19, 0x09, 0x01, 0x03] := by decide +kernel
theorem test_rhoPi : (rhoPi rising).toList.map BitVec.toNat =
    [0x1, 0x700000000000, 0x680000000000, 0x2600000, 0x64000, 0x40000000, 0xA00000, 0x58, 0x2200000000000,
     0xE000000000000002, 0x4, 0x200, 0x1C000000, 0x1400, 0x540000, 0x28000000, 0x6000000000, 0x3000, 0x90000,
     0x1800000000000000, 0xC000000000000000, 0x480000000000000, 0x78000000000, 0x200000000000, 0x58] := by
  decide +kernel
theorem test_chi : (chi rising).toList.map BitVec.toNat =
    [0x00, 0x06, 0x02, 0x04, 0x07, 0x0E, 0x06, 0x0A, 0x0D, 0x0B, 0x0A, 0x0E, 0x0C, 0x0E, 0x0B, 0x12, 0x10, 0x16,
     0x13, 0x15, 0x14, 0x1E, 0x16, 0x1C, 0x1B] := by decide +kernel
/-- R86: the constants whose printed words have the most digits set. -/
theorem test_roundConstants : roundConstants[12].toNat = 0x8000808B ∧ roundConstants[2].toNat = 0x800000000000808A ∧
    roundConstants[19].toNat = 0x800000008000000A ∧ roundConstants[23].toNat = 0x8000000080008008 := by decide +kernel
theorem test_round : (keccakRound 1 (keccakRound 0 initLanes)).toList.map BitVec.toNat =
    [0x8083, 0x100000000000, 0x8000, 0x1, 0x100000008000, 0, 0x200000200000, 0, 0x200000000000, 0x200000,
     0x2, 0x200, 0, 0x202, 0, 0x10000400, 0, 0x400, 0x10000000, 0,
     0x10000000000, 0, 0x10000000004, 0, 0x4] := by decide +kernel
theorem test_permutation_of_zero : (keccakF initLanes)[24].toNat = 0xEAF1FF7B5CECA249 := by decide +kernel

/-! ### The sponge: T10, V2, T17, P1, P2 -/

theorem test_pad_0 : (pad 0 (Vector.replicate 136 0))[0] = 0x01 ∧ (pad 0 (Vector.replicate 136 0))[135] = 0x80 := by
  decide +kernel
theorem test_pad_135 : (pad 135 (Vector.replicate 136 0))[135] = 0x81 := by decide +kernel

/-- The digest of "abc", stored by the command at 0x1000. -/
theorem test_hash_abc : (after (exec (.hash 0x1800 3 0x1000) two)).mem.bytes 0x1000 32 =
    [0x4e, 0x03, 0x65, 0x7a, 0xea, 0x45, 0xa9, 0x4f, 0xc7, 0xd4, 0x7b, 0xa8, 0x26, 0xc8, 0xd6, 0x67,
     0xc0, 0xd1, 0xe6, 0xe3, 0x3a, 0x64, 0xa0, 0x36, 0xec, 0x44, 0xf5, 0x8f, 0xa1, 0x2d, 0x6c, 0x45] := by
  decide +kernel
theorem test_hash_as_first_command : answersNext (step (State.reset.withFetchWord 256 1)) = true := by decide +kernel

theorem test_contract : violation? two 0x1000 0x100 0x1FE0 = none ∧
    violation? two 0x1000 0x100 0x1FE1 = some .outputNotWritable ∧
    violation? two 0x0F00 0x101 0x1FE0 = some .inputNotReadable ∧
    violation? two 0 0 0x1FE0 = none ∧ violation? two 0 1 0x1FE0 = some .inputNotReadable ∧
    violation? two 0x1000 0x100 0x10F0 = some .overlap ∧ violation? two 0x1000 0x100 0x1100 = none ∧
    violation? two 0xFFFFFFFFFFFFFFF0 0x20 0x1000 = some .pastTop ∧
    violation? two 0x8000 1 0x1000 = some .notOrdinary := by decide +kernel

/-- V5: instance 1 may not write where instance 0 is to write (R142). -/
theorem test_shared_output : violation? (running.withActive 1) 0 0 0x1010 = some .sharedBuffer := by decide +kernel

/-! ### Lane access: T16 -/

theorem test_wrlane_rdlane :
    (after (execSeq [.wrlane 7 0x0123456789ABCDEF, .rdlane 7] two)).responses =
      [⟨0, none⟩, ⟨0, some 0x0123456789ABCDEF⟩] := by decide +kernel
theorem test_wrlane_leaves_8_unspecified :
    ((after (exec (.wrlane 7 1) two)).engine?.map fun e => (e.specified[7], e.specified[8])) =
      some (true, false) := by decide +kernel
theorem test_rdlane_25 : refusal? (exec (.rdlane 25) two) = some (.reserved .laneIndex) := by decide
theorem test_permute_unspecified :
    ((after (exec .permute two)).engine?.map fun e => e.specified.toList.any id) = some false := by decide +kernel

/-! ### Channel and events -/

/-- P5: with nothing more from outside both running commands respond, one after the other, and the second digest is stored
(V1: the digest of the empty input). -/
theorem test_running_commands_respond :
    let t := after (core.run 2 running)
    t.responses = [⟨0, none⟩, ⟨1, none⟩] ∧ t.engines.map Engine.busy = [false, false] ∧
      digestText (t.mem.bytes 0x1100 4) = "c5d24601" := by decide +kernel
/-- A `HASH` whose input is not readable is refused at issue (V1 of R132). -/
theorem test_issue_outside_contract :
    refusal? (step (two.withPending [.issue 0 (encode (.hash 0 1 0x1000))])) =
      some (.contractViolation .inputNotReadable) := by decide +kernel

theorem test_busy_refused : refusal? (step (running.commandNext 0 2)) = some .busy := by decide +kernel
theorem test_no_such_engine : refusal? (step (two.commandNext 2 2)) = some .noSuchInstance := by decide +kernel
theorem test_agent_in_running_input :
    refusal? (step (running.withPending [.agentWrite 0x1801 0])) = some (.contractViolation .sharedBuffer) := by
  decide +kernel
theorem test_reset_then_idle : ((after (step (running.withPending [.reset]))).engines.map Engine.busy) =
    [false, false] := by decide +kernel
theorem test_memory_removes_zero : Memory.write [(3, 7), (5, 1)] 5 0 = [(3, 7)] := by decide
theorem test_digestText : digestText [0x4e, 0x03, 0x65, 0x7a] = "4e03657a" := by decide +kernel
theorem test_asm : asmText (.hash 0x2000 3 0x3000) = "HASH 8192, 3, 12288" := by decide +kernel

/-! ### Witnesses: the hypotheses of each statement are met by a concrete machine -/

theorem witness_DecodeInvertsEncode : (Instr.rdlane 24).wf 0 = true ∧ (Instr.hash 0xFFFF 0 0xFFFF).wf 16 = true := by
  decide

theorem witness_EncodeInvertsDecode : decode 64 0x1804 = .ok (.rdlane 24) := by decide

theorem witness_EveryDescriptorSelectsOneRowOrIsReserved : ∃ s', accept 1 0x2 two = .ok (.permute, s') := ⟨_, rfl⟩

theorem witness_ReservedDescriptorsAreRefused :
    (two.commandNext 1 0x5).pending = .command 1 0x5 :: [] ∧ two.engines[1]? = some Engine.reset ∧
      Engine.reset.inFlight = none ∧ decode two.plat.aw 0x5 = .error .opcode := by decide +kernel

theorem witness_StepRunsTheDecodedCommand :
    (two.commandNext 1 0x1804).pending = .command 1 0x1804 :: [] ∧
      (two.commandNext 1 0x1804).engines[1]? = some Engine.reset ∧ Engine.reset.inFlight = none ∧
      decode (two.commandNext 1 0x1804).plat.aw 0x1804 = .ok (.rdlane 24) := by decide +kernel

theorem witness_FetchWordIsTheNextCommand : State.reset.engine? = some Engine.reset ∧ Engine.reset.inFlight = none ∧
    State.reset.plat.aw = 64 ∧ decodeTableWord 256 2 = some .permute := by decide +kernel

theorem witness_BusyInstanceAcceptsNoCommand :
    (running.withPending [.issue 0 0x2]).pending = .issue 0 0x2 :: [] ∧
      (running.withPending [.issue 0 0x2]).engines[0]? =
        some { Engine.reset with inFlight := some (.hash 0x1800 3 0x1000) } := by decide +kernel

theorem witness_IdleInstanceKeepsItsState : two.pending = [] ∧ (∀ e ∈ two.engines, e.inFlight = none) ∧
    (two.withPending [.finish 1]).pending = .finish 1 :: [] ∧ two.engines[1]? = some Engine.reset ∧
    Engine.reset.inFlight = none := by decide +kernel

theorem witness_AcceptedCommandAlwaysCompletes :
    (two.withPending [.command 0 0x1]).pending = .command 0 0x1 :: [] ∧
    ∃ s', accept 0 0x1 (State.reset.withPending []) = .ok (.hash 0 0 0, s') ∧
      commandViolation? s' (.hash 0 0 0) = none := ⟨by decide +kernel, _, rfl, by decide +kernel⟩

theorem witness_next_permute : ∃ t, exec .permute two = .next t := ⟨_, rfl⟩
theorem witness_next_wrlane : ∃ t, exec (.wrlane 24 5) two = .next t := ⟨_, rfl⟩
theorem witness_next_rdlane : ∃ t, exec (.rdlane 24) twoLoaded = .next t := ⟨_, rfl⟩

/-- `exec` of a `HASH` answers a next state: the hypothesis of the statements about what a `HASH` leaves behind. -/
theorem witness_next_hash : ∃ t e', exec (.hash 0x1800 3 0x1000) two = .next t ∧ t.engine? = some e' := by
  have h : answersNext (exec (.hash 0x1800 3 0x1000) two) = true := by decide +kernel
  have he : (after (exec (.hash 0x1800 3 0x1000) two)).engine?.isSome = true := by decide +kernel
  generalize exec (.hash 0x1800 3 0x1000) two = o at h he
  cases o with
  | next t => exact ⟨t, _, rfl, Option.some_get he |>.symm⟩
  | fault r => cases h
  | refused r => cases h

theorem witness_memory_wf : two.mem.wf := by decide +kernel

/-- Columns of parity zero in a state that is not zero. -/
def evenColumn : Lanes := ((Vector.replicate 25 0).set 3 7).set 18 7

theorem witness_ThetaXorsColumnParities : (∀ x : Fin 5, (columnParity evenColumn)[x] = 0) ∧ evenColumn[3] = 7 := by
  decide +kernel

theorem witness_ChiMixesEachRowFromItsSnapshot :
    (∀ x, (Vector.replicate 25 (5 : Word))[laneAt x 4] = 5) ∧
    (evenColumn[laneAt 3 3] = 7 ∧ ∀ x, x ≠ 3 → evenColumn[laneAt x 3] = 0) := by decide +kernel

theorem witness_ChiMixesEachRowFromItsSnapshot_example :
    let A : Lanes := ((((Vector.replicate 25 0).set 0 0xFFFFFFFFFFFFFFFF).set 2 0xFFFFFFFFFFFFFFFF).set 3
      0x00000000FFFFFFFF).set 4 0xAAAAAAAAAAAAAAAA
    A[laneAt 0 0] = 0xFFFFFFFFFFFFFFFF ∧ A[laneAt 1 0] = 0 ∧ A[laneAt 2 0] = 0xFFFFFFFFFFFFFFFF ∧
      A[laneAt 3 0] = 0x00000000FFFFFFFF ∧ A[laneAt 4 0] = 0xAAAAAAAAAAAAAAAA := by decide +kernel

theorem witness_IotaTouchesLaneZeroOnly : ((Vector.replicate 25 (1 : Word)))[(0 : Fin 25)] = 1 := by decide +kernel

theorem witness_PermuteAppliesThePermutation : twoLoaded.engine? = some loaded ∧
    ∀ j : Fin 25, loaded.specified[j] = true := by decide +kernel

theorem witness_PermuteOfUnspecifiedLanesIsUnspecified : two.engine? = some Engine.reset ∧
    ∃ j : Fin 25, Engine.reset.specified[j] = false := by decide +kernel

theorem witness_WrlaneWritesOneLane : two.engine? = some Engine.reset ∧ (24 : BitVec 5).toNat < 25 ∧
    25 ≤ (25 : BitVec 5).toNat := by decide +kernel

theorem witness_RdlaneRespondsWithTheLane : twoLoaded.engine? = some loaded ∧ (24 : BitVec 5).toNat < 25 ∧
    loaded.specified[(24 : BitVec 5).toNat] = true ∧ 25 ≤ (25 : BitVec 5).toNat := by decide +kernel

theorem witness_RdlaneOfUnspecifiedLaneIsFree : two.engine? = some Engine.reset ∧ (0 : BitVec 5).toNat < 25 ∧
    Engine.reset.specified[(0 : BitVec 5).toNat] = false := by decide +kernel

theorem witness_LoadPermuteReadGivesThePermutation : two.engine? = some Engine.reset := by decide +kernel

theorem witness_AbsorbXorsEachByteIntoTheRate : (∀ j, j < 136 → two.mem.read (0x100 + j) = 0) ∧
    ∀ j, j < 136 → (two.withMem ((List.range 136).map fun j => (0x100 + j, 0x61))).mem.read (0x100 + j) = 0x61 := by
  decide +kernel

theorem witness_SqueezeWritesTheFirst32StateBytes : two.mem.wf ∧
    ((Vector.replicate 25 (0 : Word)).set 0 0x4FA945EA7A65034E)[0] = 0x4FA945EA7A65034E := by decide +kernel

/-- The contract of P2's command on the test platform. -/
theorem witness_HashContract : HashContract two 0x1800 3 0x1000 where
  readable := by decide +kernel
  writable := by decide +kernel
  inSpace := by decide +kernel
  exclusive := by
    intro k e i l o _ hk hi
    have he : e = Engine.reset := by
      have hm : e ∈ two.engines := List.mem_of_getElem? hk
      simpa [two, State.resetOn] using hm
    subst he
    cases hi
  apart := by
    intro a h
    simp [Buffer.contains, inputBuffer, outputBuffer] at h
    omega
  ordinary := by decide +kernel

theorem witness_HashRunsExactlyUnderItsContract : two.engine? = some Engine.reset ∧
    (Instr.hash 0x1800 3 0x1000).wf two.plat.aw = true ∧ (Instr.hash 0 1 0x1000).wf two.plat.aw = true ∧
    HashContract two 0x1800 3 0x1000 ∧ ¬ HashContract two 0 1 0x1000 :=
  ⟨by decide +kernel, by decide, by decide, witness_HashContract,
    fun h => absurd (h.readable 0 (by decide)) (by decide +kernel)⟩

/-- The descriptor of `HASH 0, 1, 0x1000`, whose input byte the test platform cannot read. -/
def unreadable : Descriptor := encode (.hash 0 1 0x1000)

/-- Each clause: a `PERMUTE` issued while the other instance is idle, a lawful `HASH`, and one outside its contract. -/
theorem witness_IssueThenFinishIsTheCommand :
    (∃ s₁, step (two.withPending (.issue 0 0x2 :: .finish 0 :: [])) = .next s₁) ∧
    two.engines[0]? = some Engine.reset ∧ Engine.reset.inFlight = none ∧ decode two.plat.aw 0x2 = .ok .permute ∧
    decode two.plat.aw (encode (.hash 0x1800 3 0x1000)) = .ok (.hash 0x1800 3 0x1000) ∧
    HashContract (two.withActive 0) 0x1800 3 0x1000 ∧
    decode two.plat.aw unreadable = .ok (.hash 0 1 0x1000) ∧ ¬ HashContract (two.withActive 0) 0 1 0x1000 :=
  ⟨⟨_, rfl⟩, by decide +kernel, by decide, by decide, by decide +kernel, witness_HashContract, by decide +kernel,
    witness_HashRunsExactlyUnderItsContract.2.2.2.2⟩

theorem witness_HashStoresTheDigestOfTheInput : two.engine? = some Engine.reset ∧ two.mem.wf ∧
    (Instr.hash 0x1800 3 0x1000).wf two.plat.aw = true ∧ HashContract two 0x1800 3 0x1000 ∧
    (Instr.hash 0 1 0x1000).wf two.plat.aw = true ∧ ¬ HashContract two 0 1 0x1000 :=
  ⟨by decide +kernel, by decide +kernel, by decide, witness_HashContract, by decide,
    witness_HashRunsExactlyUnderItsContract.2.2.2.2⟩

theorem witness_EmptyInputIgnoresInPtr : fitsAddr two.plat.aw 0 = true ∧
    fitsAddr two.plat.aw 0xFFFFFFFFFFFFFFFF = true ∧ answersNext (exec (.hash 0 0 0x1000) two) = true := by
  decide +kernel

theorem witness_CommandReadsNothingOfOtherInstances :
    (two.setEngineAt 1 loaded).engines.length = two.engines.length ∧
    (two.setEngineAt 1 loaded).engines[two.active]? = two.engines[two.active]? ∧
    ∀ k : Nat, ((two.setEngineAt 1 loaded).engines[k]?).map Engine.inFlight = (two.engines[k]?).map Engine.inFlight := by
  refine ⟨by decide +kernel, by decide +kernel, fun k => ?_⟩
  match k with
  | 0 => rfl
  | 1 => rfl
  | _ + 2 => rfl

/-- The invariant with two commands in flight. -/
theorem witness_running_inv : running.Inv where
  memCanonical := by decide +kernel
  memInSpace := by decide +kernel
  inFlightLawful := by
    intro k e i hk hi
    match k with
    | 0 =>
      have he : { Engine.reset with inFlight := some (.hash 0x1800 3 0x1000) } = e := Option.some.inj hk
      subst he
      cases Option.some.inj hi
      decide +kernel
    | 1 =>
      have he : { Engine.reset with inFlight := some (.hash 0 0 0x1100) } = e := Option.some.inj hk
      subst he
      cases Option.some.inj hi
      decide +kernel
    | _ + 2 => cases hk
  responders := by decide +kernel

theorem witness_BusyInstanceRespondsByItself : running.Inv ∧ running.pending = [] ∧
    running.engines[0]? = some { Engine.reset with inFlight := some (.hash 0x1800 3 0x1000) } :=
  ⟨witness_running_inv, rfl, rfl⟩

/-- One event from outside, then both instances respond. -/
theorem witness_EveryIssuedCommandResponds : (running.withPending [.agentRead 0x1802]).Inv ∧
    ∃ t, core.run (running.withPending [.agentRead 0x1802]).pending.length (running.withPending [.agentRead 0x1802]) =
      .next t :=
  ⟨⟨witness_running_inv.1, witness_running_inv.2, witness_running_inv.3, witness_running_inv.4⟩, running, by rfl⟩

theorem witness_RunningHashesDoNotDisturbEachOther : running.Inv ∧
    running.engines[0]? = some { Engine.reset with inFlight := some (.hash 0x1800 3 0x1000) } ∧
    running.engines[1]? = some { Engine.reset with inFlight := some (.hash 0 0 0x1100) } :=
  ⟨witness_running_inv, rfl, rfl⟩

/-- Each clause of the agent's store: beyond the space, at the device, in a running buffer's last byte, just after it. -/
theorem witness_AgentStoreRespectsRunningBuffers :
    (running.withPending [.agentWrite 0x101F 1]).pending = .agentWrite 0x101F 1 :: [] ∧
    2 ^ running.plat.aw ≤ 2 ^ 64 ∧ running.plat.ordinaryAt 0x8000 = false ∧
    running.plat.ordinaryAt 0x101F = true ∧ running.plat.ordinaryAt 0x1020 = true ∧
    (∃ bs ∈ running.allBuffers, bs.1.contains 0x101F = true ∨ bs.2.contains 0x101F = true) ∧
    ∀ bs ∈ running.allBuffers, bs.1.contains 0x1020 = false ∧ bs.2.contains 0x1020 = false := by decide +kernel

/-- Each clause of the agent's load: beyond the space, at the device, in a running output buffer, in a running input buffer. -/
theorem witness_AgentLoadRespectsOutputBuffers :
    (running.withPending [.agentRead 0x1802]).pending = .agentRead 0x1802 :: [] ∧
    2 ^ running.plat.aw ≤ 2 ^ 64 ∧ running.plat.ordinaryAt 0x8000 = false ∧ running.plat.ordinaryAt 0x1000 = true ∧
    running.plat.ordinaryAt 0x1802 = true ∧
    (∃ bs ∈ running.allBuffers, bs.2.contains 0x1000 = true) ∧
    ∀ bs ∈ running.allBuffers, bs.2.contains 0x1802 = false := by decide +kernel

theorem witness_ResetAbandonsCommandsInFlight :
    (running.withPending [.reset]).pending = .reset :: [] ∧
    ∀ bs ∈ (running.withPending [.reset]).allBuffers, bs.2.contains 0x1020 = false := by decide +kernel

theorem witness_StepKeepsTheInvariant : (running.withPending [.agentRead 0x1802]).Inv ∧
    ∃ t, step (running.withPending [.agentRead 0x1802]) = .next t :=
  ⟨witness_EveryIssuedCommandResponds.1, running, by rfl⟩

end Sys2Proof.Tests
end

section
/-! The platform and the number of instances are fixed (R5, R6, R37; log entry 19). -/

namespace Sys2Proof.Machine

/-- The two states are of one machine: the same platform parameters and the same number of instances (R5, R6, R37). -/
def State.SameHardware (s t : State) : Prop := t.plat = s.plat ∧ t.engines.length = s.engines.length

theorem State.SameHardware.refl (s : State) : s.SameHardware s := ⟨rfl, rfl⟩

theorem State.SameHardware.trans {s t u : State} (h₁ : s.SameHardware t) (h₂ : t.SameHardware u) :
    s.SameHardware u :=
  ⟨h₂.1.trans h₁.1, h₂.2.trans h₁.2⟩

theorem exec_sameHardware {i : Instr} {s t : State} (h : exec i s = .next t) : s.SameHardware t := by
  obtain ⟨e, e', d, m, xs, n, -, rfl, -, -⟩ := exec_next h
  exact ⟨rfl, by simp⟩

theorem accept_sameHardware {k : Nat} {d : Descriptor} {s t : State} {i : Instr} (h : accept k d s = .ok (i, t)) :
    s.SameHardware t := by
  obtain ⟨e, -, -, -, rfl⟩ := accept_ok h
  exact ⟨rfl, by simp⟩

theorem agentWrite_sameHardware {a : Nat} {v : Byte} {s t : State} (h : agentWrite a v s = .next t) :
    s.SameHardware t := by
  obtain ⟨rfl, -⟩ := agentAccess_next h
  exact ⟨rfl, rfl⟩

theorem agentRead_sameHardware {a : Nat} {s t : State} (h : agentRead a s = .next t) : s.SameHardware t := by
  obtain ⟨rfl, -⟩ := agentAccess_next h
  exact .refl _

theorem resetAll_sameHardware (s : State) : s.SameHardware (resetAll s) := by
  obtain ⟨m, n, hm, -⟩ := abandonOutputs_spec s.allBuffers s
  exact ⟨by simp [resetAll, hm], by simp [resetAll]⟩

/-- Of all a step can do, only a command's response, its issue and a reset touch the list of instances, and each replaces
entries in place. -/
theorem step_sameHardware {s t : State} (h : step s = .next t) : s.SameHardware t := by
  have taken (rest : List Event) : s.SameHardware (s.withPending rest) := ⟨rfl, rfl⟩
  have activated {s : State} (k : Nat) : s.SameHardware (s.withActive k) := ⟨rfl, rfl⟩
  obtain ⟨-, hnone⟩ | ⟨ev, rest, -, hev⟩ := step_cases h
  · obtain ⟨rfl, -⟩ | ⟨k, e, i, -, -, -, hx⟩ := hnone
    · exact .refl _
    · exact (activated k).trans (exec_sameHardware hx)
  · refine (taken rest).trans ?_
    obtain ⟨k, d, i, s', -, ha, hx⟩ | ⟨k, d, i, -, ha, -⟩ | ⟨k, e, -, -, hfinish⟩ | ⟨a, v, -, hw⟩ | ⟨a, -, hr⟩ |
      ⟨-, rfl⟩ := hev
    · exact (accept_sameHardware ha).trans (exec_sameHardware hx)
    · exact accept_sameHardware ha
    · obtain ⟨-, rfl⟩ | ⟨i, -, hx⟩ := hfinish
      · exact .refl _
      · exact (activated k).trans (exec_sameHardware hx)
    · exact agentWrite_sameHardware hw
    · exact agentRead_sameHardware hr
    · exact resetAll_sameHardware _

/-- Settles O47: every case of `step_cases` keeps the platform and the number of instances. -/
theorem noStepChangesThePlatform : Obligations.NoStepChangesThePlatform :=
  fun _ _ => step_sameHardware

end Sys2Proof.Machine
end

section
/-! The addressed engine: what replacing it changes, and that its own command is not among the others' (R45 (e)). -/

namespace Sys2Proof.Machine

theorem engine?_withActive_setEngineAt {s : State} {k : Nat} {e e' : Engine} (h : s.engines[k]? = some e) :
    ((s.setEngineAt k e').withActive k).engine? = some e' := by
  have hk : k < s.engines.length := (List.getElem?_eq_some_iff.mp h).1
  simp [State.engine?, hk]

theorem engine?_setEngine {s : State} {e e' : Engine} (h : s.engine? = some e) : (s.setEngine e').engine? = some e' :=
  engine?_withActive_setEngineAt h

theorem engine?_respond {s : State} {e e' : Engine} (d : Option Word) (h : s.engine? = some e) :
    (s.respond e' d).engine? = some { e' with inFlight := none } := by
  simp [State.engine?, engine?_lt h]

/-- What the skipped engine has in flight does not matter to the list of the others' buffers. -/
theorem buffersExcept_set_skipped (e : Engine) (es : List Engine) (j n : Nat) :
    buffersExcept (j + n) j (es.set n e) = buffersExcept (j + n) j es := by
  induction es generalizing j n with
  | nil => rfl
  | cons c es ih =>
    cases n with
    | zero =>
      have skipped (c : Engine) : buffersExcept j j (c :: es) = buffersExcept j (j + 1) es := by
        rw [buffersExcept]
        split
        · exact if_pos rfl
        · rfl
      exact (skipped e).trans (skipped c).symm
    | succ n =>
      have ih' := ih (j + 1) n
      rw [Nat.add_right_comm, Nat.add_assoc] at ih'
      simp only [List.set_cons_succ, buffersExcept, ih']

theorem othersBuffers_setEngine (s : State) (e : Engine) : (s.setEngine e).othersBuffers = s.othersBuffers := by
  have h := buffersExcept_set_skipped e s.engines 0 s.active
  rwa [Nat.zero_add] at h

/-- The contract of a command is judged without regard to the engine it is addressed to. -/
theorem violation?_setEngine (s : State) (e : Engine) (a l o : Word) :
    violation? (s.setEngine e) a l o = violation? s a l o :=
  violation?_congr (s := s) (t := s.setEngine e) rfl (othersBuffers_setEngine s e) a l o

theorem commandViolation?_setEngine (s : State) (e : Engine) (i : Instr) :
    commandViolation? (s.setEngine e) i = commandViolation? s i := by
  cases i with
  | hash a l o => exact violation?_setEngine s e a l o
  | permute => rfl
  | wrlane j v => rfl
  | rdlane j => rfl

/-- A command breaks no contract exactly when it is no `HASH` outside `HashContract` (R109, R138). -/
theorem commandViolation?_eq_none {s : State} {i : Instr} :
    commandViolation? s i = none ↔ ∀ a l o, i = .hash a l o → HashContract s a l o := by
  cases i with
  | hash a l o =>
    refine hashContract_iff.symm.trans ⟨?_, fun h => h a l o rfl⟩
    rintro h _ _ _ ⟨⟩
    exact h
  | permute => simp [commandViolation?]
  | wrlane j v => simp [commandViolation?]
  | rdlane j => simp [commandViolation?]

end Sys2Proof.Machine
end

section
/-! Issue, completion and the command in one step (R24, R45, R58). -/

namespace Sys2Proof.Machine

theorem step_of_pending {s : State} {ev : Event} {rest : List Event} (h : s.pending = ev :: rest) :
    step s = onEvent ev (s.withPending rest) := by
  simp only [step, nextEvent, h]

theorem runCommand_of_accept {k : Nat} {d : Descriptor} {s s' : State} {i : Instr} (h : accept k d s = .ok (i, s')) :
    runCommand k d s = exec i s' := by
  simp only [runCommand, h]

theorem issueCommand_lawful {k : Nat} {d : Descriptor} {s s' : State} {i : Instr} (h : accept k d s = .ok (i, s'))
    (hv : commandViolation? s' i = none) : issueCommand k d s = .next s' := by
  simp only [issueCommand, h, hv]

theorem issueCommand_violation {k : Nat} {d : Descriptor} {s s' : State} {i : Instr} {v : Violation}
    (h : accept k d s = .ok (i, s')) (hv : commandViolation? s' i = some v) :
    issueCommand k d s = .refused (.contractViolation v) := by
  simp only [issueCommand, h, hv]

theorem finishCommand_inFlight {k : Nat} {s : State} {e : Engine} {i : Instr} (he : s.engines[k]? = some e)
    (hi : e.inFlight = some i) : finishCommand k s = exec i (s.withActive k) := by
  simp only [finishCommand, he, hi]

/-- At issue the contract is judged as it stood before the engine became busy. -/
theorem commandViolation?_accepted (s : State) (k : Nat) (rest : List Event) (e : Engine) (i : Instr) :
    commandViolation? (((s.withPending rest).setEngineAt k e).withActive k) i = commandViolation? (s.withActive k) i :=
  commandViolation?_setEngine ((s.withPending rest).withActive k) e i

/-- Settles O6: the event is taken, the descriptor accepted, its command executed. -/
theorem stepRunsTheDecodedCommand : Obligations.StepRunsTheDecodedCommand := by
  intro s k d rest e i hp he hidle hd
  rw [step_of_pending hp]
  exact runCommand_of_accept (accept_of he hidle hd)

theorem decodeTableWord_eq_some {nbits w : Nat} {i : Instr} :
    decodeTableWord nbits w = some i ↔ decode 64 (tableDescriptor nbits w) = .ok i := by
  rw [decodeTableWord, ← tableDescriptor]
  cases decode 64 (tableDescriptor nbits w) <;> simp [Except.toOption]

/-- Settles O7: the table word's descriptor is the next command of the addressed engine, so O6 applies. -/
theorem fetchWordIsTheNextCommand : Obligations.FetchWordIsTheNextCommand := by
  intro s e nbits w i he hidle haw hw
  have hd : decode s.plat.aw (tableDescriptor nbits w) = .ok i := haw ▸ decodeTableWord_eq_some.mp hw
  exact stepRunsTheDecodedCommand (s.withFetchWord nbits w) s.active _ s.pending e i rfl he hidle hd

/-- An issue that answers a next state accepted its descriptor, and its contract is kept. -/
theorem issueCommand_next {k : Nat} {d : Descriptor} {s t : State} (h : issueCommand k d s = .next t) :
    ∃ i, accept k d s = .ok (i, t) ∧ commandViolation? t i = none := by
  unfold issueCommand at h
  split at h
  · cases h
  · next i s' ha =>
    split at h
    · cases h
    · next hv => cases h; exact ⟨i, ha, hv⟩

/-- Completing a command right after its issue is running it as one command. -/
theorem step_finish_after_issue {s s₁ : State} {k : Nat} {d : Descriptor} {rest : List Event}
    (h : step (s.withPending (.issue k d :: .finish k :: rest)) = .next s₁) :
    step s₁ = step (s.withPending (.command k d :: rest)) := by
  obtain ⟨i, ha, -⟩ := issueCommand_next (s := s.withPending (.finish k :: rest)) h
  obtain ⟨e, he, hidle, hd, rfl⟩ := accept_ok ha
  have hk : k < s.engines.length := (List.getElem?_eq_some_iff.mp he).1
  have hfinish := finishCommand_inFlight (k := k) (e := { e with inFlight := some i }) (i := i)
    (s := ((s.withPending rest).setEngineAt k { e with inFlight := some i }).withActive k) (by simp [hk]) rfl
  exact hfinish.trans
    (stepRunsTheDecodedCommand (s.withPending (.command k d :: rest)) k d rest e i rfl he hidle hd).symm

/-- Settles O8: issue accepts the descriptor and judges its contract; completion then executes what was accepted. -/
theorem issueThenFinishIsTheCommand : Obligations.IssueThenFinishIsTheCommand := by
  refine ⟨fun s k d rest e i hp he hidle hd => ?_, fun _ _ _ _ _ => step_finish_after_issue⟩
  have hstep : step s = issueCommand k d (s.withPending rest) := step_of_pending hp
  have ha := accept_of (s := s.withPending rest) he hidle hd
  have hjudged := commandViolation?_accepted s k rest { e with inFlight := some i } i
  have hk : k < s.engines.length := (List.getElem?_eq_some_iff.mp he).1
  refine ⟨fun hlawful => ?_, ?_⟩
  · have hv := commandViolation?_eq_none.mpr hlawful
    refine ⟨hv, _, hstep.trans (issueCommand_lawful ha (hjudged.trans hv)), by simp [hk], fun j hj => ?_, by simp,
      rfl, rfl, rfl, rfl, rfl, rfl, rfl⟩
    exact List.getElem?_set_ne hj.symm
  · rintro a l o rfl hbroken
    obtain ⟨v, hv⟩ := Option.ne_none_iff_exists'.mp (mt hashContract_iff.mpr hbroken)
    exact ⟨v, hv, hstep.trans (issueCommand_violation ha (hjudged.trans hv))⟩

end Sys2Proof.Machine
end

section
/-! What a `HASH` takes from its engine and what it leaves there (R13, R159). -/

namespace Sys2Proof.Machine

/-- The full-block loop reads memory and the addressed engine's number, no engine. -/
theorem absorbLoop_withEngines (es : List Engine) (n : Nat) (p : Absorbing) :
    absorbLoop n { p with st := { p.st with engines := es } } =
      { absorbLoop n p with st := { (absorbLoop n p).st with engines := es } } := by
  induction n generalizing p with
  | zero => rfl
  | succ n ih =>
    simp only [absorbLoop]
    split
    · exact ih (absorbOne p)
    · rfl

theorem fill_withEngines (es : List Engine) (a r : Nat) (s : State) :
    fill a r { s with engines := es } = ((fill a r s).1, { (fill a r s).2 with engines := es }) := rfl

theorem memWrite_withEngines (es : List Engine) (a : Nat) (bs : List Byte) (s : State) :
    memWrite a bs { s with engines := es } = { memWrite a bs s with engines := es } := by
  simp only [memWrite_eq]
  rfl

theorem squeeze_withEngines (es : List Engine) (a : Nat) (A : Lanes) (s : State) :
    squeeze a A { s with engines := es } = { squeeze a A s with engines := es } :=
  memWrite_withEngines es a (digestBytes A) s

/-- A hash computation neither reads nor writes an engine (R13, R100). -/
theorem hashSteps_withEngines (es : List Engine) (a l o : Nat) (s : State) :
    hashSteps a l o { s with engines := es } = { hashSteps a l o s with engines := es } := by
  have h : absorbLoop l ⟨a, l, initLanes, { s with engines := es }⟩ = _ :=
    absorbLoop_withEngines es l ⟨a, l, initLanes, s⟩
  simp only [hashSteps, h, fill_withEngines, squeeze_withEngines]

theorem hashSteps_engine? (a l o : Nat) (s : State) : (hashSteps a l o s).engine? = s.engine? := by
  obtain ⟨bs, xs, -, h⟩ := hashSteps_eq a l o s
  rw [h]
  rfl

@[simp] theorem State.drawn_engine? (s : State) : s.drawn.engine? = s.engine? := rfl

theorem Engine.discarded_specified (n : Nat) (e : Engine) (j : Fin 25) : (e.discarded n).specified[j] = false := by
  simp [Engine.discarded, Engine.unspecifyLanes]

/-- After a `HASH` every lane of its engine is unspecified (R13). -/
theorem lanes_unspecified_after_hash {s t : State} {a l o : Word} (h : exec (.hash a l o) s = .next t) :
    ∃ e, t.engine? = some e ∧ ∀ j : Fin 25, e.specified[j] = false := by
  obtain ⟨e, he, -, -, rfl⟩ := execHash_next h
  have hs : (hashSteps a.toNat l.toNat o.toNat s).drawn.engine? = some e := by
    rw [State.drawn_engine?, hashSteps_engine?, he]
  exact ⟨_, engine?_respond none hs, Engine.discarded_specified s.draws e⟩

/-- Settles O37: the contract and the computation read no engine, and every `HASH` discards the lanes. -/
theorem hashIgnoresAndDiscardsTheLanes : Obligations.HashIgnoresAndDiscardsTheLanes := by
  intro s t e₁ e₂ a l o he₁ ht
  obtain ⟨_, _, hw, hv, rfl⟩ := execHash_next ht
  have hu := execHash_some (engine?_setEngine (e' := e₂) he₁) hw ((violation?_setEngine s e₂ a l o).trans hv)
  obtain ⟨e', he', hunspec'⟩ := lanes_unspecified_after_hash ht
  obtain ⟨e'', he'', hunspec''⟩ := lanes_unspecified_after_hash hu
  have hsame : hashSteps a.toNat l.toNat o.toNat (s.setEngine e₂) =
      { hashSteps a.toNat l.toNat o.toNat s with engines := (s.setEngine e₂).engines } :=
    hashSteps_withEngines _ _ _ _ s
  refine ⟨_, e', e'', hu, ?_, ?_, ?_, he', he'', fun j => ⟨hunspec' j, hunspec'' j⟩⟩
  -- With a variable in its place, no comparison of fields can unfold the computation.
  all_goals
    rw [hsame]
    generalize hashSteps a.toNat l.toNat o.toNat s = m
    rfl

/-- `RDLANE` of an unspecified lane responds with a new free draw, whatever the lane stores (R121). -/
theorem execRdlane_unspecified {s : State} {e : Engine} {i : BitVec 5} (he : s.engine? = some e) (hi : i.toNat < 25)
    (hunspec : e.specified[i.toNat] = false) :
    exec (.rdlane i) s = .next (s.drawn.respond e (some (Config.freeWord s.draws 0))) := by
  simp [exec, execRdlane, onEngine_some he, onLane_lt hi, hunspec]

/-- Settles O38: with every lane unspecified, both reads take the draw of the same number. -/
theorem lanesAfterHashAreFree : Obligations.LanesAfterHashAreFree := by
  intro s t e a l o i w hi ht he
  obtain ⟨_, he', hall⟩ := lanes_unspecified_after_hash ht
  obtain rfl := Option.some.inj (he.symm.trans he')
  have hunspec : e.specified[i.toNat] = false := hall ⟨i.toNat, hi⟩
  exact ⟨_, _, execRdlane_unspecified he hi hunspec, execRdlane_unspecified (engine?_setEngine he) hi hunspec,
    rfl, rfl, rfl⟩

end Sys2Proof.Machine
end

section
/-! The machine after reset (R25, R150, R151). -/

namespace Sys2Proof.Machine

theorem eq_reset_of_mem_resetOn {plat : Platform} {n : Nat} {e : Engine}
    (h : e ∈ (State.resetOn plat n).engines) : e = Engine.reset :=
  List.eq_of_mem_replicate h

theorem Engine.reset_specified (j : Fin 25) : Engine.reset.specified[j] = false := by
  simp [Engine.reset]

/-- Settles O45: every engine is a copy of `Engine.reset`, and the records are empty. -/
theorem resetLeavesEveryInstanceIdle : Obligations.ResetLeavesEveryInstanceIdle := by
  intro plat n
  refine ⟨List.length_replicate, fun e he => ?_, rfl, rfl⟩
  obtain rfl := eq_reset_of_mem_resetOn he
  exact ⟨rfl, Engine.reset_specified⟩

/-- Settles O48: memory and responses are empty, and no engine has a command in flight. -/
theorem resetSatisfiesTheInvariant : Obligations.ResetSatisfiesTheInvariant := fun plat n =>
  { memCanonical := ⟨.nil, fun _ hc => nomatch hc⟩
    memInSpace := fun _ hc => nomatch hc
    inFlightLawful := by
      intro k e i he hi
      obtain rfl := eq_reset_of_mem_resetOn (List.mem_of_getElem? he)
      cases hi
    responders := fun _ hr => nomatch hr }

end Sys2Proof.Machine
end

section
/-! The invariant, kept by the parts of a step: acceptance, execution, an agent's store, reset (R30, R36, R45, R57, R142). -/

namespace Sys2Proof.Machine

theorem Buffer.Apart.symm {b c : Buffer} (h : b.Apart c) : c.Apart b :=
  fun a ⟨hc, hb⟩ => h a ⟨hb, hc⟩

theorem State.Inv.withPending {s : State} (h : s.Inv) (evs : List Event) : (s.withPending evs).Inv :=
  ⟨h.memCanonical, h.memInSpace, h.inFlightLawful, h.responders⟩

theorem State.Inv.withActive {s : State} (h : s.Inv) (k : Nat) : (s.withActive k).Inv :=
  ⟨h.memCanonical, h.memInSpace, h.inFlightLawful, h.responders⟩

/-- A `HASH` in flight is within its contract. -/
theorem State.Inv.hashContract {s : State} (h : s.Inv) {k : Nat} {e : Engine} {a l o : Word}
    (he : s.engines[k]? = some e) (hi : e.inFlight = some (.hash a l o)) : HashContract (s.withActive k) a l o :=
  hashContract_iff.mpr (h.inFlightLawful k e _ he hi).2

/-- What an engine has in flight after a response it had before: the responding engine has nothing. -/
theorem engine_before_respond {s : State} {e e' : Engine} {d : Option Word} {j : Nat} {i : Instr}
    (h : (s.respond e d).engines[j]? = some e') (hi : e'.inFlight = some i) : s.engines[j]? = some e' := by
  rw [State.respond_engines, List.getElem?_set] at h
  split at h
  · split at h
    · cases h; cases hi
    · cases h
  · exact h

theorem othersBuffers_respond {s : State} {e : Engine} {d : Option Word} {j : Nat} {bs : Buffer × Buffer}
    (h : bs ∈ ((s.respond e d).withActive j).othersBuffers) : bs ∈ (s.withActive j).othersBuffers := by
  obtain ⟨k, e', hk, hne, hbs⟩ := mem_othersBuffers.mp h
  obtain ⟨a, l, o, hi, -⟩ := Engine.buffers?_eq_some.mp hbs
  have hold : s.engines[k]? = some e' := engine_before_respond (s := s) (d := d) hk hi
  exact mem_othersBuffers.mpr ⟨k, e', hold, hne, hbs⟩

/-- The record of accesses and the draws are no part of the invariant, and of memory only its form and its extent are. -/
theorem State.Inv.withMemory {s : State} (h : s.Inv) {m : Memory} (hwf : m.wf) (hm : ∀ c ∈ m, c.1 < 2 ^ s.plat.aw)
    (bus : List Access) (n : Nat) : State.Inv { s with mem := m, bus := bus, draws := n } :=
  ⟨hwf, hm, h.inFlightLawful, h.responders⟩

/-- After a response one command fewer is in flight, and the others keep their contracts. -/
theorem State.Inv.respond {s : State} (h : s.Inv) (hk : s.active < s.engines.length) (e : Engine) (d : Option Word) :
    (s.respond e d).Inv where
  memCanonical := h.memCanonical
  memInSpace := h.memInSpace
  inFlightLawful := by
    intro j e' i he' hi
    obtain ⟨hw, hv⟩ := h.inFlightLawful j e' i (engine_before_respond he' hi) hi
    have hplat : ((s.respond e d).withActive j).plat = (s.withActive j).plat := rfl
    exact ⟨hw, commandViolation?_mono hplat (fun _ => othersBuffers_respond) i hv⟩
  responders := by
    intro r hr
    rw [State.respond_responses, List.mem_append, List.mem_singleton] at hr
    rw [State.respond_engines, List.length_set]
    obtain hr | rfl := hr
    · exact h.responders r hr
    · exact hk

/-- A 32-byte store at the output address of a `HASH` within its contract stays inside the space (R45 (d)). -/
theorem HashContract.writeBytes_inSpace {s : State} {a l o : Word} (hc : HashContract s a l o)
    (h : ∀ c ∈ s.mem, c.1 < 2 ^ s.plat.aw) {bs : List Byte} (hbs : bs.length = 32) :
    ∀ c ∈ s.mem.writeBytes o.toNat bs, c.1 < 2 ^ s.plat.aw := by
  intro c hmem
  obtain ⟨-, htop⟩ := hc.inSpace
  obtain ⟨-, hlt⟩ | hold := Memory.mem_writeBytes hmem
  · omega
  · exact h c hold

theorem exec_keeps_inv {s t : State} {i : Instr} (hs : s.Inv) (h : exec i s = .next t) : t.Inv := by
  obtain ⟨e, e', d, m, xs, n, he, rfl, -, ⟨rfl, rfl⟩ | ⟨a, l, o, bs, rfl, hbs, hv, rfl⟩⟩ := exec_next h
  · exact (hs.withMemory hs.memCanonical hs.memInSpace _ n).respond (engine?_lt he) e' d
  · have hwf := Memory.wf_writeBytes hs.memCanonical o.toNat bs
    have hm := (hashContract_iff.mpr hv).writeBytes_inSpace hs.memInSpace hbs
    exact (hs.withMemory hwf hm _ n).respond (engine?_lt he) e' d

/-- A command that executes breaks no contract. -/
theorem exec_lawful {i : Instr} {s t : State} (h : exec i s = .next t) : commandViolation? s i = none := by
  refine commandViolation?_eq_none.mpr ?_
  rintro a l o rfl
  obtain ⟨-, -, -, hv, -⟩ := execHash_next h
  exact hashContract_iff.mpr hv

theorem eq_of_getElem?_set_self {es : List Engine} {k : Nat} {e e' : Engine} (h : (es.set k e)[k]? = some e') :
    e' = e := by
  rw [List.getElem?_set_self'] at h
  obtain ⟨_, -, hc⟩ := Option.map_eq_some_iff.mp h
  exact hc.symm

/-- A contract stays kept when engine `k` becomes busy with a command that keeps its own: the discipline between two
commands is symmetric (R142). -/
theorem HashContract.of_issue {s : State} {k j : Nat} {e : Engine} {i : Instr} {a l o : Word} (hjk : j ≠ k)
    (hc : HashContract (s.withActive j) a l o) {ej : Engine} (hej : s.engines[j]? = some ej)
    (hij : ej.inFlight = some (.hash a l o))
    (hnew : commandViolation? ((s.setEngineAt k { e with inFlight := some i }).withActive k) i = none) :
    HashContract ((s.setEngineAt k { e with inFlight := some i }).withActive j) a l o where
  readable := hc.readable
  writable := hc.writable
  inSpace := hc.inSpace
  apart := hc.apart
  ordinary := hc.ordinary
  exclusive := by
    intro n en a' l' o' hn hen hin
    have hset : (s.engines.set k { e with inFlight := some i })[n]? = some en := hen
    by_cases hnk : n = k
    · subst hnk
      obtain rfl := eq_of_getElem?_set_self hset
      obtain rfl := Option.some.inj hin
      have hej' : (s.engines.set n { e with inFlight := some (.hash a' l' o') })[j]? = some ej :=
        (List.getElem?_set_ne hjk.symm).trans hej
      obtain ⟨h₁, h₂, h₃⟩ := (commandViolation?_eq_none.mp hnew a' l' o' rfl).exclusive j ej a l o hjk hej' hij
      exact ⟨h₃.symm, h₂.symm, h₁.symm⟩
    · rw [List.getElem?_set_ne (Ne.symm hnk)] at hset
      exact hc.exclusive n en a' l' o' hn hset hin

/-- Accepting a command that keeps its contract. -/
theorem accept_keeps_inv {s t : State} {k : Nat} {d : Descriptor} {i : Instr} (hs : s.Inv)
    (h : accept k d s = .ok (i, t)) (hv : commandViolation? t i = none) : t.Inv := by
  obtain ⟨e, he, -, hd, rfl⟩ := accept_ok h
  refine ⟨hs.memCanonical, hs.memInSpace, fun j ej ij hej hij => ?_, fun r hr => ?_⟩
  · have hset : (s.engines.set k { e with inFlight := some i })[j]? = some ej := hej
    by_cases hjk : j = k
    · subst hjk
      obtain rfl := eq_of_getElem?_set_self hset
      obtain rfl := Option.some.inj hij
      exact ⟨Laws.decode_wf hd, hv⟩
    · rw [List.getElem?_set_ne (Ne.symm hjk)] at hset
      obtain ⟨hw, hold⟩ := hs.inFlightLawful j ej ij hset hij
      refine ⟨hw, commandViolation?_eq_none.mpr ?_⟩
      rintro a l o rfl
      exact (hashContract_iff.mpr hold).of_issue hjk hset hij hv
  · simpa using hs.responders r hr

theorem agentWrite_keeps_inv {s t : State} {a : Nat} {v : Byte} (hs : s.Inv) (h : agentWrite a v s = .next t) :
    t.Inv := by
  obtain ⟨rfl, hin, -, -⟩ := agentAccess_next h
  refine ⟨Memory.wf_write hs.memCanonical a v, fun c hc => ?_, hs.inFlightLawful, hs.responders⟩
  obtain hca | hold := Memory.mem_write hc
  · rw [hca]
    exact of_decide_eq_true hin
  · exact hs.memInSpace c hold

theorem agentRead_keeps_inv {s t : State} {a : Nat} (hs : s.Inv) (h : agentRead a s = .next t) : t.Inv := by
  obtain ⟨rfl, -⟩ := agentAccess_next h
  exact hs

/-- A running command's output buffer lies in the space (R45 (d)). -/
theorem State.Inv.output_inSpace {s : State} (hs : s.Inv) {bs : Buffer × Buffer} (hbs : bs ∈ s.allBuffers) {a : Nat}
    (ha : bs.2.contains a = true) : a < 2 ^ s.plat.aw := by
  obtain ⟨e, he, hb⟩ := List.mem_filterMap.mp hbs
  obtain ⟨k, hk⟩ := List.mem_iff_getElem?.mp he
  obtain ⟨i, l, o, hi, rfl⟩ := Engine.buffers?_eq_some.mp hb
  obtain ⟨-, htop⟩ := (hs.hashContract hk hi).inSpace
  obtain ⟨-, hlt⟩ := (Buffer.contains_iff _ _).mp ha
  exact Nat.lt_of_lt_of_le hlt htop

/-- A reset ends every command; the bytes it leaves unspecified lie in output buffers. -/
theorem resetAll_keeps_inv {s : State} (hs : s.Inv) : (resetAll s).Inv := by
  obtain ⟨m, n, hm, hwf, hcells, -⟩ := abandonOutputs_spec s.allBuffers s
  simp only [resetAll, hm]
  refine ⟨hwf hs.memCanonical, fun c hc => ?_, fun k e i he hi => ?_, fun r hr => ?_⟩
  · obtain hold | ⟨bs, hbs, ha⟩ := hcells c hc
    · exact hs.memInSpace c hold
    · exact hs.output_inSpace hbs ha
  · obtain ⟨_, -, rfl⟩ := List.mem_map.mp (List.mem_of_getElem? he)
    cases hi
  · rw [List.length_map]
    exact hs.responders r hr

/-- Settles O49: each case of `step_cases` is an acceptance, an execution, an agent's access or a reset, and each keeps the
invariant. -/
theorem stepKeepsTheInvariant : Obligations.StepKeepsTheInvariant := by
  intro s t hs h
  obtain ⟨-, ⟨rfl, -⟩ | ⟨k, e, i, -, -, -, hx⟩⟩ | ⟨ev, rest, -, hev⟩ := step_cases h
  · exact hs
  · exact exec_keeps_inv (hs.withActive k) hx
  · have hs' := hs.withPending rest
    obtain ⟨k, d, i, s', -, ha, hx⟩ | ⟨k, d, i, -, ha, hv⟩ | ⟨k, e, -, -, ⟨-, rfl⟩ | ⟨i, -, hx⟩⟩ | ⟨a, v, -, hw⟩ |
      ⟨a, -, hr⟩ | ⟨-, rfl⟩ := hev
    · exact exec_keeps_inv (accept_keeps_inv hs' ha (exec_lawful hx)) hx
    · exact accept_keeps_inv hs' ha hv
    · exact hs'
    · exact exec_keeps_inv (hs'.withActive k) hx
    · exact agentWrite_keeps_inv hs' hw
    · exact agentRead_keeps_inv hs' hr
    · exact resetAll_keeps_inv hs'

end Sys2Proof.Machine
end

section
/-! What a command leaves alone: memory for all but `HASH`, and everything outside its engine (R37, R139, R141). -/

namespace Sys2Proof.Machine

theorem OutsideKept.of_respond {s : State} (m : Memory) (bus : List Access) (n : Nat) (e : Engine) (d : Option Word) :
    OutsideKept s (State.respond { s with mem := m, bus := bus, draws := n } e d) where
  plat := rfl
  count := List.length_set
  others _ hk := List.getElem?_set_ne hk.symm
  active := rfl
  pending := rfl

theorem exec_outsideKept {i : Instr} {s t : State} (h : exec i s = .next t) : OutsideKept s t := by
  obtain ⟨-, e', d, m, xs, n, -, rfl, -, -⟩ := exec_next h
  exact .of_respond m (s.bus ++ xs) n e' d

/-- Settles O40: whatever a command does, it ends in the response of its own engine. -/
theorem commandLeavesOtherInstancesAlone : Obligations.CommandLeavesOtherInstancesAlone :=
  fun _ _ _ => exec_outsideKept

theorem exec_memoryKept {i : Instr} {s t : State} (hi : ∀ a l o, i ≠ .hash a l o) (h : exec i s = .next t) :
    MemoryKept s t := by
  obtain ⟨-, e', d, m, xs, n, -, rfl, -, ⟨rfl, rfl⟩ | ⟨a, l, o, -, rfl, -⟩⟩ := exec_next h
  · exact ⟨fun _ => rfl, rfl, List.append_nil s.bus⟩
  · exact absurd rfl (hi a l o)

theorem Engine.permuted_scr (n : Nat) (e : Engine) : (e.permuted n).scr = e.scr := by
  simp only [Engine.permuted, Engine.unspecifyLanes, apply_ite Engine.scr, ite_self]

/-- Only `HASH` uses the scratch buffer (R17). -/
theorem exec_scr {i : Instr} {s t : State} {e : Engine} (hi : ∀ a l o, i ≠ .hash a l o) (he : s.engine? = some e)
    (h : exec i s = .next t) : ∃ e', t.engine? = some e' ∧ e'.scr = e.scr := by
  have found {e₀ : Engine} (he₀ : s.engine? = some e₀) : e₀ = e := Option.some.inj (he₀.symm.trans he)
  cases i with
  | hash a l o => exact absurd rfl (hi a l o)
  | permute =>
    obtain ⟨e₀, he₀, rfl⟩ := execPermute_next h
    obtain rfl := found he₀
    exact ⟨_, engine?_respond (s := s.drawn) none he, Engine.permuted_scr s.draws e₀⟩
  | wrlane j v =>
    obtain ⟨e₀, he₀, hj, rfl⟩ := execWrlane_next h
    obtain rfl := found he₀
    exact ⟨_, engine?_respond none he, rfl⟩
  | rdlane j =>
    obtain ⟨e₀, he₀, hj, ⟨-, rfl⟩ | ⟨-, rfl⟩⟩ := execRdlane_next h
    all_goals obtain rfl := found he₀
    · exact ⟨_, engine?_respond _ he, rfl⟩
    · exact ⟨_, engine?_respond (s := s.drawn) _ he, rfl⟩

/-- Settles O39: no lane command is a `HASH`, the one command that stores, accesses or fills the scratch buffer. -/
theorem laneCommandsTouchNoMemory : Obligations.LaneCommandsTouchNoMemory :=
  fun _ _ _ _ hi he h => ⟨exec_memoryKept hi h, exec_outsideKept h, exec_scr hi he h⟩

end Sys2Proof.Machine
end

section
/-! Another agent's accesses (R45 (e), R132 V5, R158; log entry 17). -/

namespace Sys2Proof.Machine

variable {s done : State} {a : Nat} {p : Buffer × Buffer → Bool}

theorem agentAccess_outside (h : 2 ^ s.plat.aw ≤ a) : agentAccess s a p done = .fault (.noSuchAddress a) := by
  simp [agentAccess, Platform.inSpace, h]

theorem agentAccess_device (h : a < 2 ^ s.plat.aw) (hdev : s.plat.ordinaryAt a = false) :
    agentAccess s a p done = .refused .deviceAccess := by
  simp [agentAccess, Platform.inSpace, h, hdev]

theorem agentAccess_protected (h : a < 2 ^ s.plat.aw) (hord : s.plat.ordinaryAt a = true)
    (hp : s.allBuffers.any p = true) : agentAccess s a p done = .refused (.contractViolation .sharedBuffer) := by
  simp only [agentAccess, Platform.inSpace, h, hord, hp]
  rfl

theorem agentAccess_free (h : a < 2 ^ s.plat.aw) (hord : s.plat.ordinaryAt a = true)
    (hp : s.allBuffers.any p = false) : agentAccess s a p done = .next done := by
  simp only [agentAccess, Platform.inSpace, h, hord, hp]
  rfl

/-- Settles O43: a store is protected by both buffers of each running `HASH`. -/
theorem agentStoreRespectsRunningBuffers : Obligations.AgentStoreRespectsRunningBuffers := by
  intro s a v rest hp
  have hstep : step s = agentWrite a v (s.withPending rest) := step_of_pending hp
  rw [hstep]
  refine ⟨agentAccess_outside, agentAccess_device, fun ha hord => ⟨?_, fun hfree => ?_⟩⟩
  · rintro ⟨bs, hbs, hin⟩
    exact agentAccess_protected ha hord (List.any_eq_true.mpr ⟨bs, hbs, Bool.or_eq_true_iff.mpr hin⟩)
  · have hnone : s.allBuffers.any (fun b => b.1.contains a || b.2.contains a) = false :=
      List.any_eq_false.mpr fun bs hbs => by simp [hfree bs hbs]
    exact ⟨_, agentAccess_free (s := s.withPending rest) ha hord hnone, fun hwf => Memory.read_write_same hwf a v,
      fun b hb => Memory.read_write_ne s.mem hb.symm v, rfl, rfl, rfl, rfl, rfl⟩

/-- Settles O44: a load is protected by the output buffer of each running `HASH` only. -/
theorem agentLoadRespectsOutputBuffers : Obligations.AgentLoadRespectsOutputBuffers := by
  intro s a rest hp
  have hstep : step s = agentRead a (s.withPending rest) := step_of_pending hp
  rw [hstep]
  refine ⟨agentAccess_outside, agentAccess_device, fun ha hord => ⟨fun hin => ?_, fun hfree => ?_⟩⟩
  · exact agentAccess_protected ha hord (List.any_eq_true.mpr hin)
  · exact agentAccess_free (s := s.withPending rest) ha hord
      (List.any_eq_false.mpr fun bs hbs => by simp [hfree bs hbs])

end Sys2Proof.Machine
end

section
/-! One hash computation in closed form (R100 to R106, R110, R111): the machine's steps compute `keccak256` of the input bytes, read
each of them once, ascending, and then write the digest. -/

namespace Sys2Proof.Machine

/-! ### The accesses, as lists -/

/-- `n` single-byte reads from address `a` on by engine `k` (R35). -/
def readsFrom (k a n : Nat) : List Access := (List.range n).map fun j => .read k (a + j)

/-- Single-byte writes of `bs` from address `a` on by engine `k` (R35). -/
def writesOf (k a : Nat) (bs : List Byte) : List Access :=
  (List.range bs.length).map fun j => .write k (a + j) (bs.getD j 0)

theorem readsFrom_append (k a m n : Nat) : readsFrom k a m ++ readsFrom k (a + m) n = readsFrom k a (m + n) := by
  simp [readsFrom, List.range_add, Nat.add_assoc]

theorem writesOf_eq_finRange (k a : Nat) (v : Vector Byte 32) :
    writesOf k a v.toList = (List.finRange 32).map fun j => .write k (a + j.val) v[j] := by
  rw [writesOf, Vector.length_toList, ← List.map_coe_finRange_eq_range, List.map_map]
  refine List.map_congr_left fun j _ => ?_
  simp [List.getD]

/-! ### The blocks of the input -/

theorem getElem_blockAt_bytes (m : Memory) (a l o : Nat) {k : Nat} (hk : k < 136) :
    (blockAt (m.bytes a l) o)[k] = if o + k < l then m.read (a + o + k) else 0 := by
  by_cases h : o + k < l <;> simp [blockAt, Memory.bytes, h, Nat.add_assoc]

/-- A full block of the input is 136 bytes of memory. -/
theorem memRead_eq_blockAt {a l o : Nat} (h : o + 136 ≤ l) (s : State) :
    (memRead (a + o) 136 s).1 = blockAt (s.mem.bytes a l) o := by
  refine Vector.ext fun k hk => ?_
  have hin : o + k < l := by omega
  rw [getElem_blockAt_bytes, if_pos hin]
  simp [memRead_fst]

/-- The tail of the input in a zeroed scratch buffer (R103). -/
theorem fill_eq_blockAt {a l o : Nat} (h : o ≤ l) (s : State) :
    (fill (a + o) (l - o) s).1 = blockAt (s.mem.bytes a l) o := by
  refine Vector.ext fun k hk => ?_
  have htail : k < l - o ↔ o + k < l := by omega
  rw [getElem_blockAt_bytes]
  simp [fill, memRead_fst, htail]

/-! ### The full-block loop -/

/-- The lanes after the first `q` full blocks of `m` (R111). -/
def absorbBlocks (m : List Byte) (q : Nat) : Lanes :=
  (List.range q).foldl (fun S b => keccakF (absorbBlock S (blockAt m (136 * b)))) initLanes

theorem absorbBlocks_succ (m : List Byte) (q : Nat) :
    absorbBlocks m (q + 1) = keccakF (absorbBlock (absorbBlocks m q) (blockAt m (136 * q))) := by
  simp only [absorbBlocks, List.range_succ, List.foldl_append, List.foldl_cons, List.foldl_nil]

theorem keccak256_eq (m : List Byte) : keccak256 m = digestBytes (absorbScr (absorbBlocks m (m.length / 136))
    (pad (m.length % 136) (blockAt m (136 * (m.length / 136))))) := rfl

/-- What the loop carries after `q` full blocks of the `l` bytes at `a`. -/
def absorbed (a l q : Nat) (s : State) : Absorbing :=
  ⟨a + 136 * q, l - 136 * q, absorbBlocks (s.mem.bytes a l) q, s.logBus (readsFrom s.active a (136 * q))⟩

theorem absorbed_zero (a l : Nat) (s : State) : absorbed a l 0 s = ⟨a, l, initLanes, s⟩ := by
  simp [absorbed, absorbBlocks, readsFrom, State.logBus]

theorem absorbOne_absorbed {a l q : Nat} (h : 136 * q + 136 ≤ l) (s : State) :
    absorbOne (absorbed a l q s) = absorbed a l (q + 1) s := by
  have hblock : (memRead (a + 136 * q) 136 (s.logBus (readsFrom s.active a (136 * q)))).1 =
      blockAt (s.mem.bytes a l) (136 * q) := memRead_eq_blockAt h _
  have hreads : (memRead (a + 136 * q) 136 (s.logBus (readsFrom s.active a (136 * q)))).2 =
      s.logBus (readsFrom s.active a (136 * (q + 1))) := by
    rw [memRead_snd, logBus_logBus, Nat.mul_succ, ← readsFrom_append]
    rfl
  simp only [absorbOne, absorbMem, absorbed, hblock, hreads, absorbBlocks_succ, Nat.mul_succ, Nat.add_assoc, Nat.sub_sub]

/-- The loop stops at the last full block (R102). -/
theorem absorbLoop_absorbed {a l n q : Nat} (hq : q ≤ l / 136) (hn : l / 136 ≤ q + n) (s : State) :
    absorbLoop n (absorbed a l q s) = absorbed a l (l / 136) s := by
  induction n generalizing q with
  | zero =>
    obtain rfl : q = l / 136 := by omega
    rfl
  | succ n ih =>
    have hrem : (absorbed a l q s).rem = l - 136 * q := rfl
    rw [absorbLoop, hrem]
    split
    · next hfull =>
      rw [absorbOne_absorbed (by omega)]
      exact ih (by omega) (by omega)
    · next hdone =>
      obtain rfl : q = l / 136 := by omega
      rfl

theorem squeeze_eq (o : Nat) (A : Lanes) (s : State) : squeeze o A s =
    (s.withMem (s.mem.writeBytes o (digestBytes A))).logBus (writesOf s.active o (digestBytes A)) :=
  memWrite_eq o (digestBytes A) s

theorem logBus_withMem (s : State) (xs : List Access) (m : Memory) :
    (s.logBus xs).withMem m = (s.withMem m).logBus xs := rfl

/-- R110: what one hash computation does to the machine. -/
theorem hashSteps_eq_keccak256 (a l o : Nat) (s : State) : hashSteps a l o s =
    (s.withMem (s.mem.writeBytes o (keccak256 (s.mem.bytes a l)))).logBus
      (readsFrom s.active a l ++ writesOf s.active o (keccak256 (s.mem.bytes a l))) := by
  have hloop : absorbLoop l ⟨a, l, initLanes, s⟩ = absorbed a l (l / 136) s := by
    rw [← absorbed_zero]
    exact absorbLoop_absorbed (Nat.zero_le _) (by omega) s
  have hrem : l - 136 * (l / 136) = l % 136 := by omega
  have hfull : 136 * (l / 136) + l % 136 = l := Nat.div_add_mod l 136
  have htail := fill_eq_blockAt (a := a) (Nat.mul_div_le l 136) (s.logBus (readsFrom s.active a (136 * (l / 136))))
  have hreads : (fill (a + 136 * (l / 136)) (l % 136) (s.logBus (readsFrom s.active a (136 * (l / 136))))).2 =
      s.logBus (readsFrom s.active a l) := by
    rw [← congrArg (readsFrom s.active a) hfull, ← readsFrom_append, ← logBus_logBus]
    rfl
  rw [hrem] at htail
  simp only [hashSteps, hloop, absorbed, hrem, htail, hreads, squeeze_eq, keccak256_eq, Memory.length_bytes,
    State.logBus_mem, State.logBus_active, logBus_withMem, logBus_logBus]

theorem length_keccak256 (m : List Byte) : (keccak256 m).length = 32 := by
  rw [keccak256_eq, length_digestBytes]

/-- Memory and the memory channel after a `HASH` (R34, R110). -/
theorem execHash_memory {s t : State} {a l o : Word} (h : exec (.hash a l o) s = .next t) :
    t.mem = s.mem.writeBytes o.toNat (keccak256 (s.mem.bytes a.toNat l.toNat)) ∧
    t.bus = s.bus ++ (readsFrom s.active a.toNat l.toNat ++
      writesOf s.active o.toNat (keccak256 (s.mem.bytes a.toNat l.toNat))) := by
  obtain ⟨e, -, -, -, rfl⟩ := execHash_next h
  rw [hashSteps_eq_keccak256]
  -- With a variable in its place, no comparison of fields can unfold the digest.
  generalize keccak256 (s.mem.bytes a.toNat l.toNat) = digest
  exact ⟨rfl, rfl⟩

end Sys2Proof.Machine
end

section
/-! The accesses of a `HASH`, and the empty input (R34, R46). -/

namespace Sys2Proof.Machine

theorem exists_digest_vector (m : List Byte) : ∃ v : Vector Byte 32, keccak256 m = v.toList := by
  have hlen := length_keccak256 m
  generalize keccak256 m = bs at hlen
  exact ⟨⟨bs.toArray, hlen⟩, rfl⟩

/-- Settles O35: the closed form of the hash computation names every access. -/
theorem hashReadsInputOnceThenWritesOutputOnce : Obligations.HashReadsInputOnceThenWritesOutputOnce := by
  intro s t a l o h
  obtain ⟨-, hbus⟩ := execHash_memory h
  obtain ⟨v, hv⟩ := exists_digest_vector (s.mem.bytes a.toNat l.toNat)
  rw [hv, writesOf_eq_finRange, ← List.append_assoc] at hbus
  exact ⟨v, hbus⟩

theorem Memory.bytes_zero (m : Memory) (a : Nat) : m.bytes a 0 = [] := rfl

/-- The computation on an empty input does not use its address (R46). -/
theorem hashSteps_empty (p q o : Nat) (s : State) : hashSteps p 0 o s = hashSteps q 0 o s := by
  simp only [hashSteps_eq_keccak256, Memory.bytes_zero, readsFrom, List.range_zero, List.map_nil]

theorem Buffer.disjoint_of_empty {b : Buffer} (h : b.len = 0) (c : Buffer) : b.disjoint c = true :=
  (Buffer.disjoint_iff b c).mpr (.inl h)

theorem buffersCompatible_of_empty {b : Buffer} (h : b.len = 0) (c : Buffer) :
    buffersCompatible (b, c) = fun d => c.disjoint d.1 && c.disjoint d.2 := by
  funext d
  rw [buffersCompatible, Buffer.disjoint_of_empty h, Bool.and_true]

/-- The contract of an empty input inside the space is that of the output buffer alone (R45 (c), R46). -/
theorem violation?_empty {s : State} {p q : Word} (o : Word) (hp : fitsAddr s.plat.aw p = true)
    (hq : fitsAddr s.plat.aw q = true) : violation? s p 0 o = violation? s q 0 o := by
  have hlen (w : Word) : (inputBuffer w 0).len = 0 := rfl
  have hfits {w : Word} (h : fitsAddr s.plat.aw w = true) : ¬ 2 ^ s.plat.aw < (inputBuffer w 0).base :=
    Nat.not_lt.mpr (Nat.le_of_lt (of_decide_eq_true h))
  simp only [violation?, hlen, Nat.add_zero, hfits hp, hfits hq, Buffer.disjoint_of_empty (hlen _),
    buffersCompatible_of_empty (hlen _), allBytes]

theorem execHash_empty {s : State} {p q : Word} (o : Word) (hp : fitsAddr s.plat.aw p = true)
    (hq : fitsAddr s.plat.aw q = true) : exec (.hash p 0 o) s = exec (.hash q 0 o) s := by
  have hlen : (0 : Word).toNat = 0 := rfl
  simp only [exec, execHash, Instr.wf, hp, hq, violation?_empty o hp hq, hlen, hashSteps_empty p.toNat q.toNat]

/-- Settles O36: neither the contract nor the computation of an empty input uses its address, and it has no read. -/
theorem emptyInputIgnoresInPtr : Obligations.EmptyInputIgnoresInPtr := by
  intro s p q o hp hq
  refine ⟨execHash_empty o hp hq, fun t h => ?_⟩
  obtain ⟨-, hbus⟩ := execHash_memory h
  obtain ⟨v, hv⟩ := exists_digest_vector []
  have hempty : s.mem.bytes p.toNat (0 : Word).toNat = [] := Memory.bytes_zero s.mem p.toNat
  have hreads : readsFrom s.active p.toNat (0 : Word).toNat = [] := rfl
  rw [hempty, hreads, hv, writesOf_eq_finRange, List.nil_append] at hbus
  exact ⟨v, hv, hbus⟩

end Sys2Proof.Machine
end

section
/-! Two `HASH` commands in flight (R40, R141, R142): their buffers are apart, so their stores commute and neither is an input of
the other. -/

namespace Sys2Proof.Machine

section
variable {m : Memory} {o o₁ o₂ : Word} {bs bs₁ bs₂ : List Byte}

theorem Memory.read_store_elsewhere (hbs : bs.length = 32) {a : Nat} (ha : ¬ (outputBuffer o).contains a = true) :
    (m.writeBytes o.toNat bs).read a = m.read a := by
  rw [Buffer.contains_iff] at ha
  refine Memory.read_writeBytes_outside m ?_
  rw [hbs]
  simp only [outputBuffer] at ha
  omega

theorem Memory.bytes_store_apart (hbs : bs.length = 32) {a l : Word} (h : (inputBuffer a l).Apart (outputBuffer o)) :
    (m.writeBytes o.toNat bs).bytes a.toNat l.toNat = m.bytes a.toNat l.toNat := by
  refine List.map_congr_left fun j hj => Memory.read_store_elsewhere hbs fun hout => h (a.toNat + j) ⟨?_, hout⟩
  exact (Buffer.contains_iff _ _).mpr ⟨Nat.le_add_right _ j, Nat.add_lt_add_left (List.mem_range.mp hj) _⟩

theorem outputBuffer_contains (o : Word) {j : Nat} (hj : j < 32) : (outputBuffer o).contains (o.toNat + j) = true :=
  (Buffer.contains_iff _ _).mpr ⟨Nat.le_add_right _ j, Nat.add_lt_add_left hj _⟩

theorem Memory.read_stored (hm : m.wf) (hbs : bs.length = 32) {j : Nat} (hj : j < 32) :
    some ((m.writeBytes o.toNat bs).read (o.toNat + j)) = bs[j]? := by
  have hj' : j < bs.length := hbs ▸ hj
  rw [Memory.read_writeBytes_inside hm hj', List.getElem?_eq_getElem hj']

/-- What a store leaves to read depends on the memory before it only outside the stored bytes. -/
theorem Memory.read_store_congr {m' : Memory} (hm : m.wf) (hm' : m'.wf) (hbs : bs.length = 32) {a : Nat}
    (h : ¬ (outputBuffer o).contains a = true → m.read a = m'.read a) :
    (m.writeBytes o.toNat bs).read a = (m'.writeBytes o.toNat bs).read a := by
  by_cases ha : (outputBuffer o).contains a = true
  · obtain ⟨hle, hlt⟩ := (Buffer.contains_iff _ _).mp ha
    obtain ⟨j, rfl⟩ := Nat.exists_eq_add_of_le hle
    have hj : j < 32 := Nat.lt_of_add_lt_add_left hlt
    exact Option.some.inj ((Memory.read_stored hm hbs hj).trans (Memory.read_stored hm' hbs hj).symm)
  · rw [Memory.read_store_elsewhere hbs ha, Memory.read_store_elsewhere hbs ha, h ha]

/-- Stores to output buffers that are apart commute, as far as memory can be read. -/
theorem Memory.read_store_comm (hm : m.wf) (h₁ : bs₁.length = 32) (h₂ : bs₂.length = 32)
    (hapart : (outputBuffer o₁).Apart (outputBuffer o₂)) (a : Nat) :
    ((m.writeBytes o₁.toNat bs₁).writeBytes o₂.toNat bs₂).read a =
      ((m.writeBytes o₂.toNat bs₂).writeBytes o₁.toNat bs₁).read a := by
  by_cases ha : (outputBuffer o₁).contains a = true
  · have hother : ¬ (outputBuffer o₂).contains a = true := fun h => hapart a ⟨ha, h⟩
    rw [Memory.read_store_elsewhere h₂ hother]
    exact Memory.read_store_congr hm (Memory.wf_writeBytes hm _ bs₂) h₁ fun h => absurd ha h
  · rw [Memory.read_store_elsewhere h₁ ha]
    exact Memory.read_store_congr (Memory.wf_writeBytes hm _ bs₁) hm h₂ fun _ => Memory.read_store_elsewhere h₁ ha

end

/-- Engine `k` has `HASH a, l, o` in flight. -/
def State.Hashing (s : State) (k : Nat) (a l o : Word) : Prop :=
  ∃ e, s.engines[k]? = some e ∧ e.inFlight = some (.hash a l o)

/-- A running `HASH` completes, stores the digest of its input and leaves the other engines alone. -/
theorem step_finish_hash {s : State} {k : Nat} {a l o : Word} {rest : List Event} (hs : s.Inv) (hk : s.Hashing k a l o)
    (hp : s.pending = .finish k :: rest) : ∃ t, step s = .next t ∧ t.Inv ∧
      t.mem = s.mem.writeBytes o.toNat (keccak256 (s.mem.bytes a.toNat l.toNat)) ∧ t.pending = rest ∧
      ∀ j, j ≠ k → t.engines[j]? = s.engines[j]? := by
  obtain ⟨e, he, hi⟩ := hk
  have hstep : step s = exec (.hash a l o) ((s.withPending rest).withActive k) :=
    (step_of_pending hp).trans (finishCommand_inFlight he hi)
  obtain ⟨hw, hv⟩ := hs.inFlightLawful k e _ he hi
  obtain ⟨t, ht⟩ := exec_completes (s := (s.withPending rest).withActive k) he hw hv
  obtain ⟨hmem, -⟩ := execHash_memory ht
  have hout := exec_outsideKept ht
  have hnext : step s = .next t := hstep.trans ht
  exact ⟨t, hnext, stepKeepsTheInvariant s t hs hnext, hmem, hout.pending, hout.others⟩

/-- Two running `HASH` commands have buffers that are apart (R142). -/
theorem State.Inv.running_apart {s : State} {k₁ k₂ : Nat} {a₁ l₁ o₁ a₂ l₂ o₂ : Word} (hs : s.Inv) (hne : k₁ ≠ k₂)
    (h₁ : s.Hashing k₁ a₁ l₁ o₁) (h₂ : s.Hashing k₂ a₂ l₂ o₂) :
    (inputBuffer a₂ l₂).Apart (outputBuffer o₁) ∧ (outputBuffer o₁).Apart (outputBuffer o₂) := by
  obtain ⟨e₁, he₁, hi₁⟩ := h₁
  obtain ⟨e₂, he₂, hi₂⟩ := h₂
  obtain ⟨hin, hout, -⟩ := (hs.hashContract he₁ hi₁).exclusive k₂ e₂ a₂ l₂ o₂ hne.symm he₂ hi₂
  exact ⟨hin.symm, hout⟩

/-- When both have finished, memory holds both digests, each of the input as it was before either finished. -/
theorem run_finish_two {s : State} {k₁ k₂ : Nat} {a₁ l₁ o₁ a₂ l₂ o₂ : Word} (hs : s.Inv) (hne : k₁ ≠ k₂)
    (h₁ : s.Hashing k₁ a₁ l₁ o₁) (h₂ : s.Hashing k₂ a₂ l₂ o₂) :
    ∃ t, core.run 2 (s.withPending [.finish k₁, .finish k₂]) = .next t ∧
      t.mem = (s.mem.writeBytes o₁.toNat (keccak256 (s.mem.bytes a₁.toNat l₁.toNat))).writeBytes o₂.toNat
        (keccak256 (s.mem.bytes a₂.toNat l₂.toNat)) := by
  obtain ⟨t₁, hstep₁, hinv₁, hmem₁, hp₁, hothers⟩ := step_finish_hash (hs.withPending [.finish k₁, .finish k₂]) h₁ rfl
  have h₂' : t₁.Hashing k₂ a₂ l₂ o₂ := by
    obtain ⟨e₂, he₂, hi₂⟩ := h₂
    exact ⟨e₂, (hothers k₂ hne.symm).trans he₂, hi₂⟩
  obtain ⟨t, hstep₂, -, hmem₂, -⟩ := step_finish_hash hinv₁ h₂' hp₁
  obtain ⟨hin, -⟩ := hs.running_apart hne h₁ h₂
  rw [hmem₁, Memory.bytes_store_apart (length_keccak256 _) hin] at hmem₂
  exact ⟨t, (run_succ hstep₁).trans (run_succ hstep₂), hmem₂⟩

/-- Settles O42: in either order the two stores are the same ones, and they are apart. -/
theorem runningHashesDoNotDisturbEachOther : Obligations.RunningHashesDoNotDisturbEachOther := by
  intro s k₁ k₂ e₁ e₂ a₁ l₁ o₁ a₂ l₂ o₂ hs hne he₁ hi₁ he₂ hi₂
  have h₁ : s.Hashing k₁ a₁ l₁ o₁ := ⟨e₁, he₁, hi₁⟩
  have h₂ : s.Hashing k₂ a₂ l₂ o₂ := ⟨e₂, he₂, hi₂⟩
  obtain ⟨t, ht, htmem⟩ := run_finish_two hs hne h₁ h₂
  obtain ⟨u, hu, humem⟩ := run_finish_two hs hne.symm h₂ h₁
  obtain ⟨-, hapart⟩ := hs.running_apart hne h₁ h₂
  have hlen₁ := length_keccak256 (s.mem.bytes a₁.toNat l₁.toNat)
  have hlen₂ := length_keccak256 (s.mem.bytes a₂.toNat l₂.toNat)
  refine ⟨t, u, ht, hu, fun a => ?_, fun j hj => ?_, fun j hj => ?_⟩
  · rw [htmem, humem]
    exact Memory.read_store_comm hs.memCanonical hlen₁ hlen₂ hapart a
  · have hother : ¬ (outputBuffer o₂).contains (o₁.toNat + j) = true :=
      fun h => hapart _ ⟨outputBuffer_contains o₁ hj, h⟩
    rw [htmem, Memory.read_store_elsewhere hlen₂ hother]
    exact Memory.read_stored hs.memCanonical hlen₁ hj
  · rw [htmem]
    exact Memory.read_stored (Memory.wf_writeBytes hs.memCanonical _ _) hlen₂ hj

end Sys2Proof.Machine
end

section
/-! A descriptor is its fields (R51, R52): the decoder and the encoder are inverse to each other (R54, R55). -/

namespace Sys2Proof

/-- Two descriptors agree when their header fields and their operand words do (R51). -/
theorem descriptor_eq_iff {c d : Descriptor} : c = d ↔
    opField c = opField d ∧ idxField c = idxField d ∧ rsvField c = rsvField d ∧
      descWord c 1 = descWord d 1 ∧ descWord c 2 = descWord d 2 ∧ descWord c 3 = descWord d 3 := by
  constructor
  · rintro rfl
    simp
  · rintro ⟨hop, hidx, hrsv, h1, h2, h3⟩
    -- The operand words and the header fields, laid side by side, are the whole descriptor.
    have joined (d : Descriptor) :
        d = (descWord d 3 ++ descWord d 2 ++ descWord d 1 ++ rsvField d ++ idxField d ++ opField d : BitVec 256) := by
      apply BitVec.eq_of_getLsbD_eq
      intro i hi
      simp only [descWord, rsvField, idxField, opField, BitVec.getLsbD_append, BitVec.getLsbD_extractLsb']
      grind
    rw [joined c, joined d, hop, hidx, hrsv, h1, h2, h3]

/-- Which descriptors are built from a header and three operand words: those that have these fields (R51, R52). -/
theorem descriptor_header_eq_iff {op : BitVec 8} {idx : BitVec 5} {w1 w2 w3 : Word} {d : Descriptor} :
    descriptor (header op idx) w1 w2 w3 = d ↔
      opField d = op ∧ idxField d = idx ∧ rsvField d = 0 ∧
        descWord d 1 = w1 ∧ descWord d 2 = w2 ∧ descWord d 3 = w3 := by
  obtain ⟨hop, hrsv, hidx⟩ := Laws.Header.fields_of_descriptor op idx w1 w2 w3
  rw [eq_comm, descriptor_eq_iff, hop, hidx, hrsv, Laws.descWord_one, Laws.descWord_two, Laws.descWord_three]

/-- The encoder loses no operand, and the decoder ignores no bit (R54, R55). -/
theorem decode_eq_ok {aw : Nat} {d : Descriptor} {i : Instr} :
    decode aw d = .ok i ↔ encode i = d ∧ i.wf aw = true := by
  constructor
  · intro h
    refine ⟨?_, Laws.decode_wf h⟩
    unfold decode at h
    -- One branch per command is left, and there the decoder has compared every field.
    repeat' split at h
    all_goals cases h
    all_goals simp_all [encode, descriptor_header_eq_iff]
  · rintro ⟨hd, hw⟩
    cases i with
    | hash a l o =>
      obtain ⟨hop, hidx, hrsv, rfl, rfl, rfl⟩ := descriptor_header_eq_iff.mp hd
      simp only [Instr.wf] at hw
      simp [decode, hop, hidx, hrsv, hw]
    | permute =>
      obtain ⟨hop, hidx, hrsv, h1, h2, h3⟩ := descriptor_header_eq_iff.mp hd
      simp [decode, hop, hidx, hrsv, h1, h2, h3]
    | wrlane j v =>
      obtain ⟨hop, rfl, hrsv, rfl, h2, h3⟩ := descriptor_header_eq_iff.mp hd
      simp only [Instr.wf] at hw
      simp [decode, hop, hrsv, h2, h3, hw]
    | rdlane j =>
      obtain ⟨hop, rfl, hrsv, h1, h2, h3⟩ := descriptor_header_eq_iff.mp hd
      simp only [Instr.wf] at hw
      simp [decode, hop, hrsv, h1, h2, h3, hw]

/-- Settles O1: a well-formed command's descriptor has the fields the decoder asks for. -/
theorem decodeInvertsEncode : Obligations.DecodeInvertsEncode :=
  fun _ _ hw => decode_eq_ok.mpr ⟨rfl, hw⟩

/-- Settles O2: the decoder looks at every field. -/
theorem encodeInvertsDecode : Obligations.EncodeInvertsDecode :=
  fun _ _ _ => decode_eq_ok.mp

/-- Settles O5: each descriptor is the encoding of its command, and the all-zero one has no opcode. -/
theorem sampleDescriptorsDecode : Obligations.SampleDescriptorsDecode :=
  ⟨decodeInvertsEncode 64 (.hash 0x2000 3 0x3000) (by decide), decodeInvertsEncode 64 .permute (by decide),
    decodeInvertsEncode 64 (.wrlane 24 0xDEADBEEF00000001) (by decide), decodeInvertsEncode 64 (.rdlane 24) (by decide),
    by decide⟩

end Sys2Proof
end

section
/-! The opcode map as data selects the row of the command a descriptor decodes to (R54, R62). -/

namespace Sys2Proof

/-- A descriptor has the masked bits of a row when each of its fields has that field's masked bits (R54). -/
theorem and_mask_eq_iff {d m p : Descriptor} : d &&& m = p ↔
    opField d &&& opField m = opField p ∧ idxField d &&& idxField m = idxField p ∧
      rsvField d &&& rsvField m = rsvField p ∧ descWord d 1 &&& descWord m 1 = descWord p 1 ∧
      descWord d 2 &&& descWord m 2 = descWord p 2 ∧ descWord d 3 &&& descWord m 3 = descWord p 3 := by
  simp only [descriptor_eq_iff, opField, idxField, rsvField, descWord, BitVec.extractLsb'_and]

/-- A row selects the descriptors that have its masked bits and meet its constraint (R54). -/
theorem selects_iff {aw : Nat} {d : Descriptor} {r : OpRow} : r.selects aw d = true ↔
    (opField d &&& opField r.mask = opField r.pattern ∧ idxField d &&& idxField r.mask = idxField r.pattern ∧
      rsvField d &&& rsvField r.mask = rsvField r.pattern ∧ descWord d 1 &&& descWord r.mask 1 = descWord r.pattern 1 ∧
      descWord d 2 &&& descWord r.mask 2 = descWord r.pattern 2 ∧
      descWord d 3 &&& descWord r.mask 3 = descWord r.pattern 3) ∧ r.constraint.admits aw d = true := by
  rw [OpRow.selects, Bool.and_eq_true, decide_eq_true_iff, and_mask_eq_iff]

/-! Per row: `change` writes out what its mask keeps of each field, all bits or none, and its constraint; they are what the
decoder asks for. -/

section
variable {aw : Nat} {d : Descriptor}

theorem selects_hash : opcodeMap[0].selects aw d = true ↔ ∃ a l o, decode aw d = .ok (.hash a l o) := by
  simp only [selects_iff, decode_eq_ok, encode, descriptor_header_eq_iff]
  change (opField d &&& .allOnes 8 = 1 ∧ idxField d &&& .allOnes 5 = 0 ∧ rsvField d &&& .allOnes 51 = 0 ∧
    descWord d 1 &&& 0 = 0 ∧ descWord d 2 &&& 0 = 0 ∧ descWord d 3 &&& 0 = 0) ∧
    (fitsAddr aw (descWord d 1) && fitsAddr aw (descWord d 2) && fitsAddr aw (descWord d 3)) = true ↔ _
  simp only [BitVec.and_allOnes]
  simp [Instr.wf, and_assoc]

theorem selects_permute : opcodeMap[1].selects aw d = true ↔ decode aw d = .ok .permute := by
  simp only [selects_iff, decode_eq_ok, encode, descriptor_header_eq_iff]
  change (opField d &&& .allOnes 8 = 2 ∧ idxField d &&& .allOnes 5 = 0 ∧ rsvField d &&& .allOnes 51 = 0 ∧
    descWord d 1 &&& .allOnes 64 = 0 ∧ descWord d 2 &&& .allOnes 64 = 0 ∧ descWord d 3 &&& .allOnes 64 = 0) ∧
    true = true ↔ _
  simp only [BitVec.and_allOnes, Instr.wf]

theorem selects_wrlane : opcodeMap[2].selects aw d = true ↔ ∃ j v, decode aw d = .ok (.wrlane j v) := by
  simp only [selects_iff, decode_eq_ok, encode, descriptor_header_eq_iff]
  change (opField d &&& .allOnes 8 = 3 ∧ idxField d &&& 0 = 0 ∧ rsvField d &&& .allOnes 51 = 0 ∧
    descWord d 1 &&& 0 = 0 ∧ descWord d 2 &&& .allOnes 64 = 0 ∧ descWord d 3 &&& .allOnes 64 = 0) ∧
    laneOk (idxField d) = true ↔ _
  simp only [BitVec.and_allOnes]
  simp [Instr.wf, and_assoc]

theorem selects_rdlane : opcodeMap[3].selects aw d = true ↔ ∃ j, decode aw d = .ok (.rdlane j) := by
  simp only [selects_iff, decode_eq_ok, encode, descriptor_header_eq_iff]
  change (opField d &&& .allOnes 8 = 4 ∧ idxField d &&& 0 = 0 ∧ rsvField d &&& .allOnes 51 = 0 ∧
    descWord d 1 &&& .allOnes 64 = 0 ∧ descWord d 2 &&& .allOnes 64 = 0 ∧ descWord d 3 &&& .allOnes 64 = 0) ∧
    laneOk (idxField d) = true ↔ _
  simp only [BitVec.and_allOnes]
  simp [Instr.wf, and_assoc]

theorem selectedRows_eq_filter : selectedRows aw d =
    (List.filter (OpRow.selects aw d) [opcodeMap[0], opcodeMap[1], opcodeMap[2], opcodeMap[3]]).map OpRow.mnemonic := rfl

/-- A command's descriptor selects the command's row. -/
theorem selectedRows_of_ok {i : Instr} (h : decode aw d = .ok i) : selectedRows aw d = [i.mnemonic] := by
  rw [selectedRows_eq_filter]
  cases i <;> simp [selects_hash, selects_permute, selects_wrlane, selects_rdlane, h] <;> rfl

/-- A reserved descriptor selects no row (R55). -/
theorem selectedRows_of_error {r : Reserved} (h : decode aw d = .error r) : selectedRows aw d = [] := by
  rw [selectedRows_eq_filter]
  simp [selects_hash, selects_permute, selects_wrlane, selects_rdlane, h]

end

/-- Settles O3: the opcode map selects what the decoder decodes, and an engine accepts nothing else. -/
theorem everyDescriptorSelectsOneRowOrIsReserved : Obligations.EveryDescriptorSelectsOneRowOrIsReserved := by
  refine ⟨fun aw d => ?_, fun k d s s' i h => ?_⟩
  · cases h : decode aw d with
    | ok i => exact .inl ⟨i, rfl, selectedRows_of_ok h⟩
    | error r => exact .inr ⟨r, rfl, selectedRows_of_error h⟩
  · obtain ⟨-, -, -, hd, -⟩ := Machine.accept_ok h
    exact hd

end Sys2Proof
end

section
/-! Reserved descriptors and busy engines: what a step refuses at issue (R55, R58 (b), R132 V8, V9). -/

namespace Sys2Proof

/-- The opcodes without a row are those other than 1 to 4 (R54, R55). -/
theorem opcode_without_row_iff (op : BitVec 8) :
    (op = 0 ∨ 5 ≤ op.toNat) ↔ op ≠ 1 ∧ op ≠ 2 ∧ op ≠ 3 ∧ op ≠ 4 := by
  simp only [ne_eq, ← BitVec.toNat_inj]
  change op.toNat = 0 ∨ 5 ≤ op.toNat ↔ ¬ op.toNat = 1 ∧ ¬ op.toNat = 2 ∧ ¬ op.toNat = 3 ∧ ¬ op.toNat = 4
  omega

section
variable {p : Prop} [Decidable p] {why : Reserved}

theorem exists_error_ite_error {x : Except Reserved Instr} :
    (∃ r, (if p then Except.error why else x) = .error r) ↔ p ∨ ∃ r, x = .error r := by
  by_cases hp : p <;> simp [hp]

theorem exists_error_ite_ok {i : Instr} :
    (∃ r, (if p then Except.ok i else Except.error why) = .error r) ↔ ¬ p := by
  by_cases hp : p <;> simp [hp]

end

end Sys2Proof

namespace Sys2Proof.Machine

theorem accept_reserved {k : Nat} {d : Descriptor} {s : State} {e : Engine} {r : Reserved} (he : s.engines[k]? = some e)
    (hidle : e.inFlight = none) (hd : decode s.plat.aw d = .error r) : accept k d s = .error (.reserved r) := by
  simp [accept, he, hidle, hd]

theorem accept_busy {k : Nat} {d : Descriptor} {s : State} {e : Engine} {i : Instr} (he : s.engines[k]? = some e)
    (hbusy : e.inFlight = some i) : accept k d s = .error .busy := by
  simp [accept, he, hbusy]

/-- A descriptor that an engine does not accept is refused, whether its command is to run at once or to stay in flight. -/
theorem step_of_accept_error {s : State} {k : Nat} {d : Descriptor} {rest : List Event} {r : Refusal}
    (hp : s.pending = .command k d :: rest ∨ s.pending = .issue k d :: rest)
    (ha : accept k d (s.withPending rest) = .error r) : step s = .refused r := by
  obtain hp | hp := hp
  · rw [step_of_pending hp]
    simp only [onEvent, runCommand, ha]
  · rw [step_of_pending hp]
    simp only [onEvent, issueCommand, ha]

/-- Settles O4: per opcode the decoder refuses what R55 lists, and an idle engine does not accept what the decoder refuses. -/
theorem reservedDescriptorsAreRefused : Obligations.ReservedDescriptorsAreRefused := by
  refine ⟨fun aw d => ?_, fun s k d rest e r hp he hidle hd => ?_⟩
  · rw [decode, exists_error_ite_error]
    by_cases hhash : opField d = 1
    · rw [if_pos hhash, exists_error_ite_error, exists_error_ite_ok]
      simp [hhash, fitsAddr, imp_iff_not_or, or_assoc]
    rw [if_neg hhash]
    by_cases hpermute : opField d = 2
    · rw [if_pos hpermute, exists_error_ite_error, exists_error_ite_error]
      simp [hpermute]
    rw [if_neg hpermute]
    by_cases hwrlane : opField d = 3
    · rw [if_pos hwrlane, exists_error_ite_error, exists_error_ite_error]
      simp [hwrlane, laneOk]
    rw [if_neg hwrlane]
    by_cases hrdlane : opField d = 4
    · rw [if_pos hrdlane, exists_error_ite_error, exists_error_ite_error]
      simp [hrdlane, laneOk]
    · rw [if_neg hrdlane]
      exact iff_of_true (.inr ⟨_, rfl⟩) (.inl ((opcode_without_row_iff _).mpr ⟨hhash, hpermute, hwrlane, hrdlane⟩))
  · exact step_of_accept_error hp (accept_reserved (s := s.withPending rest) he hidle hd)

/-- Settles O9: whether the engine is busy is judged before the descriptor is decoded. -/
theorem busyInstanceAcceptsNoCommand : Obligations.BusyInstanceAcceptsNoCommand :=
  fun s _ _ rest _ _ hp he hbusy => step_of_accept_error hp (accept_busy (s := s.withPending rest) he hbusy)

end Sys2Proof.Machine
end

section
/-! Responses: one for each command (R57), and, with nothing more from outside, one for each busy engine (R58 (e), R163; log
entry 9). -/

namespace Sys2Proof.Machine

/-- Settles O12: whatever a command does to memory and its engine, it ends in the response. -/
theorem everyCommandGivesOneResponse : Obligations.EveryCommandGivesOneResponse := by
  intro i s t h
  obtain ⟨e, e', d, m, xs, n, he, rfl, hd, -⟩ := exec_next h
  exact ⟨⟨d, rfl, hd⟩, _, engine?_respond (s := { s with mem := m, bus := s.bus ++ xs, draws := n }) d he, rfl⟩

/-- The engines with a command in flight, in ascending order. -/
def State.busyInstances (s : State) : List Nat :=
  (List.range s.engines.length).filter fun k => (s.engines[k]?).any Engine.busy

theorem firstBusy?_of_idle_before {s : State} {k : Nat} {e : Engine} {i : Instr} (he : s.engines[k]? = some e)
    (hi : e.inFlight = some i) (hbefore : ∀ j, j < k → ∀ e', s.engines[j]? = some e' → e'.inFlight = none) :
    s.firstBusy? = some k := by
  obtain ⟨hk, rfl⟩ := List.getElem?_eq_some_iff.mp he
  refine List.findIdx?_eq_some_iff_getElem.mpr ⟨hk, by rw [Engine.busy, hi, Option.isSome_some], fun j hj => ?_⟩
  simp [Engine.busy, hbefore j hj _ (List.getElem?_eq_getElem (Nat.lt_trans hj hk))]

theorem step_of_firstBusy {s : State} {k : Nat} {e : Engine} {i : Instr} (hp : s.pending = [])
    (hk : s.firstBusy? = some k) (he : s.engines[k]? = some e) (hi : e.inFlight = some i) :
    step s = exec i (s.withActive k) := by
  simp only [step, nextEvent, hp, hk, finishCommand_inFlight he hi]

/-- Settles O50: the invariant makes the command in flight one that completes. -/
theorem busyInstanceRespondsByItself : Obligations.BusyInstanceRespondsByItself := by
  intro s k e i hs hp he hi hbefore
  have hstep := step_of_firstBusy hp (firstBusy?_of_idle_before he hi hbefore) he hi
  obtain ⟨hw, hv⟩ := hs.inFlightLawful k e i he hi
  obtain ⟨t, ht⟩ := exec_completes (s := s.withActive k) he hw hv
  obtain ⟨⟨d, hresp, hd⟩, e', he', hidle⟩ := everyCommandGivesOneResponse i _ t ht
  have hout := exec_outsideKept ht
  have hk : t.engines[k]? = some e' := by
    rwa [State.engine?, hout.active] at he'
  exact ⟨hstep, t, e', d, hstep.trans ht, hresp, hd, hk, hidle, hout.others, hout.plat, hout.pending.trans hp⟩

theorem mem_busyInstances {s : State} {k : Nat} :
    k ∈ s.busyInstances ↔ ∃ e i, s.engines[k]? = some e ∧ e.inFlight = some i := by
  simp only [State.busyInstances, List.mem_filter, List.mem_range, Option.any_eq_true, Option.isSome_iff_exists]
  constructor
  · rintro ⟨-, e, he, i, hi⟩
    exact ⟨e, i, he, hi⟩
  · rintro ⟨e, i, he, hi⟩
    exact ⟨(List.getElem?_eq_some_iff.mp he).1, e, he, i, hi⟩

theorem busyInstances_pairwise (s : State) : s.busyInstances.Pairwise (· < ·) :=
  List.pairwise_lt_range.filter _

theorem countP_busy (s : State) : s.engines.countP Engine.busy = s.busyInstances.length := by
  have hmap : s.engines.map Engine.busy =
      (List.range s.engines.length).map fun k => (s.engines[k]?).any Engine.busy :=
    List.ext_getElem (by simp) fun k hk _ => by
      rw [List.length_map] at hk
      simp [hk]
  rw [State.busyInstances, ← List.countP_eq_length_filter]
  simpa [List.countP_map, Function.comp_def] using congrArg (List.countP id) hmap

/-- The first busy engine is the first of the list. -/
theorem firstBusy_of_busyInstances {s : State} {k : Nat} {ks : List Nat} (h : s.busyInstances = k :: ks) :
    ∃ e i, s.engines[k]? = some e ∧ e.inFlight = some i ∧
      ∀ j, j < k → ∀ e', s.engines[j]? = some e' → e'.inFlight = none := by
  obtain ⟨e, i, he, hi⟩ := mem_busyInstances.mp (h ▸ List.mem_cons_self : k ∈ s.busyInstances)
  refine ⟨e, i, he, hi, fun j hj e' he' => Option.eq_none_iff_forall_ne_some.mpr fun i' hi' => ?_⟩
  have hbusy : j ∈ k :: ks := h ▸ mem_busyInstances.mpr ⟨e', i', he', hi'⟩
  have hsorted := List.pairwise_cons.mp (h ▸ busyInstances_pairwise s)
  obtain rfl | hlater := List.mem_cons.mp hbusy
  · exact Nat.lt_irrefl j hj
  · exact Nat.lt_asymm hj (hsorted.1 j hlater)

/-- When the first busy engine becomes idle and no other changes, the rest of the list is left. -/
theorem busyInstances_of_response {s t : State} {k : Nat} {ks : List Nat} {e : Engine} (h : s.busyInstances = k :: ks)
    (hlen : t.engines.length = s.engines.length) (he : t.engines[k]? = some e) (hidle : e.inFlight = none)
    (hothers : ∀ j, j ≠ k → t.engines[j]? = s.engines[j]?) : t.busyInstances = ks := by
  have hfilter : t.busyInstances = s.busyInstances.filter (· != k) := by
    rw [State.busyInstances, State.busyInstances, hlen, List.filter_filter]
    refine List.filter_congr fun j _ => ?_
    by_cases hj : j = k
    · simp [hj, he, hidle, Engine.busy]
    · simp [hj, hothers j hj]
  have hsorted := List.pairwise_cons.mp (h ▸ busyInstances_pairwise s)
  rw [hfilter, h, List.filter_cons_of_neg (by simp), List.filter_eq_self]
  exact fun j hj => bne_iff_ne.mpr (Nat.ne_of_gt (hsorted.1 j hj))

/-- As many steps as there are busy engines answer next states, one response each, and leave every engine idle. -/
theorem run_busyInstances {ks : List Nat} {s : State} (hs : s.Inv) (hp : s.pending = []) (hks : s.busyInstances = ks) :
    ∃ (u : State) (rs : List Response), core.run ks.length s = .next u ∧ u.responses = s.responses ++ rs ∧
      rs.map Response.engine = ks ∧ u.busyInstances = [] ∧ u.engines.length = s.engines.length ∧ u.pending = [] := by
  induction ks generalizing s with
  | nil => exact ⟨s, [], rfl, (List.append_nil _).symm, rfl, hks, rfl, hp⟩
  | cons k ks ih =>
    obtain ⟨e, i, he, hi, hbefore⟩ := firstBusy_of_busyInstances hks
    obtain ⟨-, t, e', d, ht, hresp, -, he', hidle, hothers, -, hpt⟩ :=
      busyInstanceRespondsByItself s k e i hs hp he hi hbefore
    obtain ⟨-, hlen⟩ := step_sameHardware ht
    obtain ⟨u, rs, hu, hru, hrs, hidle, hlen', hpu⟩ := ih (stepKeepsTheInvariant s t hs ht) hpt
      (busyInstances_of_response hks hlen he' hidle hothers)
    refine ⟨u, ⟨k, d⟩ :: rs, (run_succ ht).trans hu, ?_, by rw [List.map_cons, hrs], hidle, hlen'.trans hlen, hpu⟩
    rw [hru, hresp, List.append_assoc, List.singleton_append]

/-- A step takes the first pending event. -/
theorem step_pending {s t : State} (h : step s = .next t) : t.pending = s.pending.tail := by
  obtain ⟨hp, ⟨rfl, -⟩ | ⟨k, e, i, -, -, -, hx⟩⟩ | ⟨ev, rest, hp, hev⟩ := step_cases h
  · rw [hp, List.tail_nil]
  · rw [(exec_outsideKept hx).pending, State.withActive_pending, hp, List.tail_nil]
  · rw [hp, List.tail_cons]
    obtain ⟨k, d, i, s', -, ha, hx⟩ | ⟨k, d, i, -, ha, -⟩ | ⟨k, e, -, -, ⟨-, rfl⟩ | ⟨i, -, hx⟩⟩ | ⟨a, v, -, hw⟩ |
      ⟨a, -, hr⟩ | ⟨-, rfl⟩ := hev
    · obtain ⟨e, -, -, -, rfl⟩ := accept_ok ha
      exact (exec_outsideKept hx).pending
    · obtain ⟨e, -, -, -, rfl⟩ := accept_ok ha
      rfl
    · rfl
    · exact (exec_outsideKept hx).pending
    · obtain ⟨rfl, -⟩ := agentAccess_next hw
      rfl
    · obtain ⟨rfl, -⟩ := agentAccess_next hr
      rfl
    · obtain ⟨m, n, hm, -⟩ := abandonOutputs_spec (s.withPending rest).allBuffers (s.withPending rest)
      simp [resetAll, hm]

/-- Once the pending events are taken none is left, and the invariant still holds. -/
theorem run_pending {n : Nat} {s t : State} (hs : s.Inv) (hn : s.pending.length = n) (h : core.run n s = .next t) :
    t.pending = [] ∧ t.Inv := by
  induction n generalizing s with
  | zero =>
    cases h
    exact ⟨List.length_eq_zero_iff.mp hn, hs⟩
  | succ n ih =>
    obtain ⟨s₁, hstep, hrun⟩ := run_succ_next h
    refine ih (stepKeepsTheInvariant s s₁ hs hstep) ?_ hrun
    rw [step_pending hstep, List.length_tail, hn, Nat.add_sub_cancel]

/-- Settles O51: after the pending events the busy engines respond in the order of the list of them. -/
theorem everyIssuedCommandResponds : Obligations.EveryIssuedCommandResponds := by
  intro s t hs h
  obtain ⟨hp, ht⟩ := run_pending hs rfl h
  obtain ⟨u, rs, hu, hru, hrs, hnone, hlen, hpu⟩ := run_busyInstances ht hp rfl
  refine ⟨hp, u, rs, (countP_busy t).symm ▸ hu, hru, hrs, fun e he => ?_, hlen, hpu⟩
  obtain ⟨k, hk⟩ := List.mem_iff_getElem?.mp he
  refine Option.eq_none_iff_forall_ne_some.mpr fun i hi => ?_
  have hbusy : k ∈ u.busyInstances := mem_busyInstances.mpr ⟨e, i, hk, hi⟩
  rw [hnone] at hbusy
  cases hbusy

end Sys2Proof.Machine
end

section
/-! The command sequence `LDSTATE`, `PERMUTE`, `RDSTATE` (R60, R89, R122). -/

namespace Sys2Proof.Machine

/-! ### Command sequences -/

theorem execSeq_append {is js : List Instr} {s t : State} (h : execSeq is s = .next t) :
    execSeq (is ++ js) s = execSeq js t := by
  induction is generalizing s with
  | nil => cases h; rfl
  | cons i is ih =>
    rw [List.cons_append, execSeq]
    rw [execSeq] at h
    split at h
    · next s₁ hx => simpa only [hx] using ih h
    · cases h
    · cases h

theorem execSeq_cons {i : Instr} {is : List Instr} {s t : State} (h : exec i s = .next t) :
    execSeq (i :: is) s = execSeq is t := by
  simp only [execSeq, h]

theorem execSeq_cons_next {i : Instr} {is : List Instr} {s t : State} (h : execSeq (i :: is) s = .next t) :
    ∃ s₁, exec i s = .next s₁ ∧ execSeq is s₁ = .next t := by
  rw [execSeq] at h
  split at h
  · next s₁ hx => exact ⟨s₁, hx, h⟩
  · cases h
  · cases h

theorem OutsideKept.refl (s : State) : OutsideKept s s := ⟨rfl, rfl, fun _ _ => rfl, rfl, rfl⟩

theorem OutsideKept.trans {s t u : State} (h₁ : OutsideKept s t) (h₂ : OutsideKept t u) : OutsideKept s u where
  plat := h₂.plat.trans h₁.plat
  count := h₂.count.trans h₁.count
  others k hk := (h₂.others k (h₁.active ▸ hk)).trans (h₁.others k hk)
  active := h₂.active.trans h₁.active
  pending := h₂.pending.trans h₁.pending

theorem MemoryKept.refl (s : State) : MemoryKept s s := ⟨fun _ => rfl, rfl, rfl⟩

theorem MemoryKept.trans {s t u : State} (h₁ : MemoryKept s t) (h₂ : MemoryKept t u) : MemoryKept s u where
  bytes a := (h₂.bytes a).trans (h₁.bytes a)
  cells := h₂.cells.trans h₁.cells
  bus := h₂.bus.trans h₁.bus

/-- A sequence of lane commands leaves memory and everything outside its engine alone. -/
theorem execSeq_kept {is : List Instr} {s t : State} (his : ∀ i ∈ is, ∀ a l o, i ≠ .hash a l o)
    (h : execSeq is s = .next t) : OutsideKept s t ∧ MemoryKept s t := by
  induction is generalizing s with
  | nil => cases h; exact ⟨.refl _, .refl _⟩
  | cons i is ih =>
    obtain ⟨s₁, hx, h⟩ := execSeq_cons_next h
    obtain ⟨hi, his⟩ := List.forall_mem_cons.mp his
    obtain ⟨hout, hmem⟩ := ih his h
    exact ⟨(exec_outsideKept hx).trans hout, (exec_memoryKept hi hx).trans hmem⟩

/-! ### One lane -/

/-- Lane `j` is specified and holds the `j`-th of `vs`. -/
def Engine.Holds (e : Engine) (vs : Lanes) (j : Fin 25) : Prop := e.lanes[j] = vs[j] ∧ e.specified[j] = true

theorem Engine.holds_writeLane_same (e : Engine) (vs : Lanes) (j : Fin 25) : (e.writeLane j vs[j]).Holds vs j := by
  simp [Engine.Holds, Engine.writeLane]

/-- Writing one of `vs` loses none of the others. -/
theorem Engine.Holds.writeLane {e : Engine} {vs : Lanes} {j : Fin 25} (h : e.Holds vs j) (k : Fin 25) :
    (e.writeLane k vs[k]).Holds vs j := by
  by_cases hkj : k = j
  · subst hkj
    exact e.holds_writeLane_same vs k
  · have hne : k.val ≠ j.val := fun h => hkj (Fin.ext h)
    obtain ⟨hl, hs⟩ := h
    simp only [Fin.getElem_fin] at hl hs
    simp [Engine.Holds, Engine.writeLane, Vector.getElem_set_ne, hne, hl, hs]

theorem toNat_ofNat_lane (j : Fin 25) : (BitVec.ofNat 5 j.val).toNat = j.val := by
  rw [BitVec.toNat_ofNat, Nat.mod_eq_of_lt (Nat.lt_trans j.isLt (by decide))]

theorem onLane_ofNat (j : Fin 25) (f : Fin 25 → Host.Outcome State Fault Refusal) :
    onLane (BitVec.ofNat 5 j.val) f = f j := by
  rw [onLane_lt (by rw [toNat_ofNat_lane]; exact j.isLt)]
  exact congrArg f (Fin.ext (toNat_ofNat_lane j))

theorem exec_wrlane_lane {s : State} {e : Engine} (he : s.engine? = some e) (j : Fin 25) (v : Word) :
    exec (.wrlane (BitVec.ofNat 5 j.val) v) s = .next (s.respond (e.writeLane j v) none) := by
  simp only [exec, execWrlane, onEngine_some he, onLane_ofNat]

theorem exec_rdlane_holds {s : State} {e : Engine} {vs : Lanes} {j : Fin 25} (he : s.engine? = some e)
    (h : e.Holds vs j) : exec (.rdlane (BitVec.ofNat 5 j.val)) s = .next (s.respond e (some vs[j])) := by
  obtain ⟨hl, hs⟩ := h
  simp only [exec, execRdlane, onEngine_some he, onLane_ofNat, hs, hl, if_true]

/-! ### All lanes -/

/-- `WRLANE` of the lanes `js`, one after the other: those lanes, and those that held their value before, hold it. -/
theorem execSeq_wrlanes {s : State} {e : Engine} (vs : Lanes) (js : List (Fin 25)) (he : s.engine? = some e) :
    ∃ t e', execSeq (js.map fun j => .wrlane (BitVec.ofNat 5 j.val) vs[j]) s = .next t ∧ t.engine? = some e' ∧
      (∀ j, j ∈ js ∨ e.Holds vs j → e'.Holds vs j) ∧
      t.responses = s.responses ++ List.replicate js.length ⟨s.active, none⟩ := by
  induction js generalizing s e with
  | nil => exact ⟨s, e, rfl, he, by simp, (List.append_nil _).symm⟩
  | cons k js ih =>
    obtain ⟨t, e', ht, he', hholds, hresp⟩ := ih (engine?_respond (e' := e.writeLane k vs[k]) none he)
    refine ⟨t, e', (execSeq_cons (exec_wrlane_lane he k vs[k])).trans ht, he', fun j hj => hholds j ?_, ?_⟩
    · obtain hjk | hold := hj
      · obtain rfl | hjs := List.mem_cons.mp hjk
        · exact .inr (e.holds_writeLane_same vs j)
        · exact .inl hjs
      · exact .inr (hold.writeLane k)
    · rw [hresp, State.respond_responses, State.respond_active, List.append_assoc, List.length_cons,
        List.replicate_succ, List.singleton_append]

/-- `RDLANE` of the lanes `js`, one after the other, responds with what they hold and leaves every lane as it is. -/
theorem execSeq_rdlanes {s : State} {e : Engine} {vs : Lanes} (js : List (Fin 25)) (he : s.engine? = some e)
    (hall : ∀ j, e.Holds vs j) :
    ∃ t e', execSeq (js.map fun j => .rdlane (BitVec.ofNat 5 j.val)) s = .next t ∧ t.engine? = some e' ∧
      (∀ j, e'.Holds vs j) ∧ t.responses = s.responses ++ js.map fun j => ⟨s.active, some vs[j]⟩ := by
  induction js generalizing s e with
  | nil => exact ⟨s, e, rfl, he, hall, (List.append_nil _).symm⟩
  | cons k js ih =>
    obtain ⟨t, e', ht, he', hholds, hresp⟩ := ih (engine?_respond (e' := e) (some vs[k]) he) hall
    refine ⟨t, e', (execSeq_cons (exec_rdlane_holds he (hall k))).trans ht, he', hholds, ?_⟩
    rw [hresp, State.respond_responses, State.respond_active, List.append_assoc, List.map_cons, List.singleton_append]

theorem Engine.allSpecified_iff {e : Engine} : e.allSpecified = true ↔ ∀ j : Fin 25, e.specified[j] = true := by
  simp [Engine.allSpecified, Fin.forall_iff]

theorem Engine.permuted_of_allSpecified {e : Engine} (h : e.allSpecified = true) (n : Nat) :
    (e.permuted n).lanes = keccakF e.lanes ∧ (e.permuted n).specified = e.specified := by
  simp only [Engine.permuted, h, if_true, and_self]

/-- `PERMUTE` of 25 specified lanes (R89). -/
theorem Engine.permuted_holds {e : Engine} {vs : Lanes} (h : ∀ j, e.Holds vs j) (n : Nat) (j : Fin 25) :
    (e.permuted n).Holds (keccakF vs) j := by
  obtain ⟨hl, hs⟩ := Engine.permuted_of_allSpecified (Engine.allSpecified_iff.mpr fun j => (h j).2) n
  have hlanes : e.lanes = vs := Vector.ext fun k hk => (h ⟨k, hk⟩).1
  rw [Engine.Holds, hl, hs, hlanes]
  exact ⟨rfl, (h j).2⟩

/-- Settles O27: the 25 writes fill the lanes whatever they held, `PERMUTE` finds all of them specified, and the 25 reads
respond with them. -/
theorem loadPermuteReadGivesThePermutation : Obligations.LoadPermuteReadGivesThePermutation := by
  intro s e vs he
  obtain ⟨s₁, e₁, hload, he₁, hholds₁, hresp₁⟩ := execSeq_wrlanes vs (List.finRange 25) he
  have hall₁ (j : Fin 25) : e₁.Holds vs j := hholds₁ j (.inl (List.mem_finRange j))
  have hpermute : exec .permute s₁ = .next _ := execPermute_some he₁
  have he₂ := engine?_respond (s := s₁.drawn) (e' := e₁.permuted s₁.draws) none he₁
  obtain ⟨t, e', hread, he', hholds, hresp⟩ :=
    execSeq_rdlanes (List.finRange 25) he₂ (Engine.permuted_holds hall₁ s₁.draws)
  have hseq : execSeq (ldstate vs ++ [.permute] ++ rdstate) s = .next t := by
    rw [List.append_assoc, ldstate, execSeq_append hload, List.singleton_append, execSeq_cons hpermute]
    exact hread
  have hlane : ∀ i ∈ ldstate vs ++ [.permute] ++ rdstate, ∀ a l o, i ≠ .hash a l o := by
    simp only [ldstate, rdstate, List.mem_append, List.mem_map, List.mem_singleton]
    rintro _ ((⟨j, -, rfl⟩ | rfl) | ⟨j, -, rfl⟩) a l o ⟨⟩
  obtain ⟨hout, hmem⟩ := execSeq_kept hlane hseq
  obtain ⟨hout₁, -⟩ := execSeq_kept (is := ldstate vs) (fun i hi => hlane i (by simp [hi])) hload
  refine ⟨t, e', hseq, he', Vector.ext fun k hk => (hholds ⟨k, hk⟩).1, fun j => (hholds j).2, ?_, hout, hmem⟩
  rw [hresp, State.respond_responses, State.respond_active, State.drawn_responses, State.drawn_active, hresp₁,
    hout₁.active, List.append_assoc s.responses, List.length_finRange, ← List.replicate_succ']

end Sys2Proof.Machine
end

section
/-! The primitive operations: rotation (R70, R71), little-endian load and store and their place in memory (R72, R73). -/

namespace Sys2Proof.Machine

/-! ### Rotation -/

/-- The guard of R71 does not change what the formula of R70 gives: `rotl64` is the library's rotation. -/
theorem rotl64_eq_rotateLeft (v : Word) (n : Nat) : rotl64 v n = v.rotateLeft n := by
  unfold rotl64
  split
  · next h0 =>
    rw [BitVec.rotateLeft_def, h0, BitVec.shiftLeft_zero, BitVec.ushiftRight_eq_zero (Nat.le_refl 64), BitVec.or_zero]
  · exact BitVec.rotateLeft_def.symm

theorem rotl64_mod (v : Word) (n : Nat) : rotl64 v (n % 64) = rotl64 v n := by
  rw [rotl64_eq_rotateLeft, rotl64_eq_rotateLeft, BitVec.rotateLeft_mod_eq_rotateLeft]

theorem rotl64_eq_shifts (v : Word) {n : Nat} (h0 : 1 ≤ n) (h : n ≤ 63) :
    rotl64 v n = (v <<< n) ||| (v >>> (64 - n)) := by
  rw [rotl64_eq_rotateLeft, BitVec.rotateLeft_def, Nat.mod_eq_of_lt (by omega)]

theorem getElem_rotl64 (v : Word) (n : Nat) {i : Nat} (h : i < 64) :
    (rotl64 v n)[i] = if _ : i < n % 64 then v[64 - n % 64 + i] else v[i - n % 64] := by
  simp only [rotl64_eq_rotateLeft]
  exact BitVec.getElem_rotateLeft h

/-- No bit is lost or duplicated (R70): the bits whose place wraps around come out below position `n mod 64`. -/
theorem getLsbD_rotl64_moved (v : Word) (n : Nat) {j : Nat} (hj : j < 64) :
    (rotl64 v n).getLsbD ((j + n) % 64) = v.getLsbD j := by
  rw [BitVec.getLsbD_eq_getElem (by omega), BitVec.getLsbD_eq_getElem hj, getElem_rotl64]
  split
  · next hwrap =>
    have hplace : 64 - n % 64 + (j + n) % 64 = j := by omega
    simp only [hplace]
  · next hin =>
    have hplace : (j + n) % 64 - n % 64 = j := by omega
    simp only [hplace]

theorem rotl64_zero (n : Nat) : rotl64 0 n = 0 :=
  BitVec.eq_of_getElem_eq fun i hi => by simp [getElem_rotl64]

theorem rotl64_allOnes (n : Nat) : rotl64 (BitVec.allOnes 64) n = BitVec.allOnes 64 :=
  BitVec.eq_of_getElem_eq fun i hi => by simp only [getElem_rotl64, BitVec.getElem_allOnes, dite_eq_ite, ite_self]

theorem rhoAmount_range {t : Nat} (h : t < 24) : 1 ≤ rhoAmount t ∧ rhoAmount t ≤ 62 := by
  revert t
  decide

/-- Settles O13: by the place of each bit; amounts of Rho + Pi and the examples by evaluation. -/
theorem rotateMovesEveryBit : Obligations.RotateMovesEveryBit := by
  refine ⟨fun v n h0 h => ⟨rotl64_eq_shifts v h0 h, fun j hj => getLsbD_rotl64_moved v n hj⟩,
    fun n => ⟨rotl64_zero n, rotl64_allOnes n⟩, fun v => ?_, fun v => rfl, fun v n => (rotl64_mod v n).symm,
    fun t ht => rhoAmount_range ht, by decide⟩
  rw [rotl64_eq_shifts v (by decide) (by decide), BitVec.or_comm]

/-! ### Little-endian load and store -/

/-- A byte moved to place `k` of a word keeps all its bits. -/
theorem toNat_byte_shiftLeft (b : Byte) {k : Nat} (hk : k < 8) :
    ((b.setWidth 64 : Word) <<< (8 * k)).toNat = b.toNat * 2 ^ (8 * k) := by
  have hfits : b.toNat * 2 ^ (8 * k) < 2 ^ 64 :=
    calc b.toNat * 2 ^ (8 * k) < 2 ^ 8 * 2 ^ (8 * k) := Nat.mul_lt_mul_of_pos_right b.isLt (by positivity)
      _ = 2 ^ (8 + 8 * k) := (Nat.pow_add ..).symm
      _ ≤ 2 ^ 64 := Nat.pow_le_pow_right (by decide) (by omega)
  rw [BitVec.toNat_shiftLeft, BitVec.toNat_setWidth_of_le (by decide), Nat.shiftLeft_eq, Nat.mod_eq_of_lt hfits]

/-- R72: the sum does not wrap, since each byte has a place of its own. -/
theorem toNat_load64le (b : Vector Byte 8) : (load64le b).toNat =
    b[0].toNat + b[1].toNat * 2 ^ 8 + b[2].toNat * 2 ^ 16 + b[3].toNat * 2 ^ 24 + b[4].toNat * 2 ^ 32 +
      b[5].toNat * 2 ^ 40 + b[6].toNat * 2 ^ 48 + b[7].toNat * 2 ^ 56 := by
  have hplaces : List.finRange 8 = [0, 1, 2, 3, 4, 5, 6, 7] := by decide
  simp (disch := decide) only [load64le, hplaces, List.foldl_cons, List.foldl_nil, BitVec.toNat_add, Fin.getElem_fin,
    Fin.coe_ofNat_eq_mod, Nat.reduceMod, toNat_byte_shiftLeft, BitVec.ofNat_eq_ofNat, BitVec.toNat_ofNat,
    Nat.mod_add_mod]
  omega

@[simp] theorem getElem_store64le (v : Word) {k : Nat} (hk : k < 8) : (store64le v)[k] = v.extractLsb' (8 * k) 8 := by
  simp [store64le]

theorem toNat_getElem_store64le (v : Word) {k : Nat} (hk : k < 8) :
    (store64le v)[k].toNat = v.toNat / 2 ^ (8 * k) % 2 ^ 8 := by
  rw [getElem_store64le, BitVec.extractLsb'_toNat, Nat.shiftRight_eq_div_pow]

theorem load64le_store64le (v : Word) : load64le (store64le v) = v := by
  refine BitVec.eq_of_toNat_eq ?_
  simp only [toNat_load64le, toNat_getElem_store64le]
  omega

/-- Byte `k` of the sum of R72 is `b[k]`: the bytes below are lost in the quotient, those above in the remainder. -/
theorem store64le_load64le (b : Vector Byte 8) : store64le (load64le b) = b := by
  have hplace {k : Nat} (hk : k < 8) : (load64le b).toNat / 2 ^ (8 * k) % 2 ^ 8 = b[k].toNat := by
    rw [toNat_load64le]
    interval_cases k <;> omega
  exact Vector.ext fun k hk => BitVec.eq_of_toNat_eq ((toNat_getElem_store64le _ hk).trans (hplace hk))

/-! ### Their place in memory -/

theorem getElem_memRead (a : Nat) {n : Nat} (s : State) (k : Fin n) : (memRead a n s).1[k] = s.mem.read (a + k.val) := by
  simp [memRead_fst]

theorem read_memWrite {s : State} (hs : s.mem.wf) (a : Nat) {n : Nat} (bs : Vector Byte n) (k : Fin n) :
    (memWrite a bs.toList s).mem.read (a + k.val) = bs[k] := by
  rw [memWrite_eq, State.logBus_mem, State.withMem_mem, Memory.read_writeBytes_inside hs (by simp)]
  simp

theorem memWrite_bus (a : Nat) {n : Nat} (bs : Vector Byte n) (s : State) : (memWrite a bs.toList s).bus =
    s.bus ++ (List.finRange n).map fun k => .write s.active (a + k.val) bs[k] := by
  rw [memWrite_eq, State.logBus_bus, State.withMem_bus, Vector.length_toList, ← List.map_coe_finRange_eq_range,
    List.map_map]
  refine congrArg (s.bus ++ ·) (List.map_congr_left fun k _ => ?_)
  simp [List.getD]

/-- Settles O14: no byte overlaps another in the sum of R72, so its value gives every byte back. -/
theorem loadAndStoreAreLittleEndianInverses : Obligations.LoadAndStoreAreLittleEndianInverses :=
  ⟨toNat_load64le, fun v k => getElem_store64le v k.isLt, load64le_store64le, store64le_load64le,
    fun a s k => getElem_memRead a s k,
    fun a v s hs => ⟨read_memWrite hs a (store64le v), memWrite_bus a (store64le v) s⟩, by decide⟩

end Sys2Proof.Machine
end

section
/-! The four operations of a round (R80, R81 to R83, R84, R85), the round constants (R86) and the permutation (R88). -/

namespace Sys2Proof.Machine

/-! ### Lane index and coordinate (R11) -/

@[simp] theorem laneX_laneAt (x y : Fin 5) : laneX (laneAt x y) = x := by
  revert x y
  decide

@[simp] theorem laneY_laneAt (x y : Fin 5) : laneY (laneAt x y) = y := by
  revert x y
  decide

@[simp] theorem laneAt_laneX_laneY (j : Fin 25) : laneAt (laneX j) (laneY j) = j :=
  Fin.ext (Nat.mod_add_div j.val 5)

/-- Two states that agree at every coordinate are equal. -/
theorem lanes_ext {A B : Lanes} (h : ∀ x y : Fin 5, A[laneAt x y] = B[laneAt x y]) : A = B :=
  Vector.ext fun k hk => by simpa using h (laneX ⟨k, hk⟩) (laneY ⟨k, hk⟩)

theorem getElem_replicate_lane (v : Word) (j : Fin 25) : (Vector.replicate 25 v)[j] = v :=
  Vector.getElem_replicate j.isLt

/-! ### Theta -/

theorem getElem_columnParity (A : Lanes) (x : Fin 5) : (columnParity A)[x] =
    A[laneAt x 0] ^^^ A[laneAt x 1] ^^^ A[laneAt x 2] ^^^ A[laneAt x 3] ^^^ A[laneAt x 4] :=
  Vector.getElem_ofFn x.isLt

theorem getElem_thetaEffect (C : Vector Word 5) (x : Fin 5) :
    (thetaEffect C)[x] = C[x - 1] ^^^ rotl64 C[x + 1] 1 :=
  Vector.getElem_ofFn x.isLt

theorem getElem_theta (A : Lanes) (j : Fin 25) : (theta A)[j] = A[j] ^^^ (thetaEffect (columnParity A))[laneX j] :=
  Vector.getElem_ofFn j.isLt

theorem getElem_theta_laneAt (A : Lanes) (x y : Fin 5) : (theta A)[laneAt x y] =
    A[laneAt x y] ^^^ ((columnParity A)[x - 1] ^^^ rotl64 (columnParity A)[x + 1] 1) := by
  simp only [getElem_theta, laneX_laneAt, getElem_thetaEffect]

theorem theta_of_columnParity_zero {A : Lanes} (h : ∀ x : Fin 5, (columnParity A)[x] = 0) : theta A = A :=
  lanes_ext fun x y => by
    rw [getElem_theta_laneAt, h, h, rotl64_zero, BitVec.xor_self]
    exact BitVec.xor_zero

theorem columnParity_zero (x : Fin 5) : (columnParity (Vector.replicate 25 0))[x] = 0 := by
  rw [getElem_columnParity]
  simp

/-- Settles O15: a column of parity zero adds nothing to its neighbours, and the zero state has only such columns. -/
theorem thetaXorsColumnParities : Obligations.ThetaXorsColumnParities :=
  ⟨getElem_columnParity, getElem_theta_laneAt, fun _ => theta_of_columnParity_zero,
    theta_of_columnParity_zero columnParity_zero, by decide⟩

/-! ### Rho + Pi -/

/-- The coordinate the recurrence of R81 stands at before step `t`. -/
def rhoPiCoord : Nat → Fin 5 × Fin 5
  | 0 => (1, 0)
  | t + 1 => nextCoord (rhoPiCoord t).1 (rhoPiCoord t).2

/-- The lane at that coordinate. -/
def rhoPiLane (t : Nat) : Fin 25 := laneAt (rhoPiCoord t).1 (rhoPiCoord t).2

/-- The 24 steps fill 24 different lanes. -/
theorem rhoPiLane_ne {t k : Nat} (htk : t < k) (hk : k ≤ 24) (ht : 0 < t) : rhoPiLane t ≠ rhoPiLane k := by
  have hall : ∀ k < 25, ∀ t < k, 0 < t → rhoPiLane t ≠ rhoPiLane k := by decide
  exact hall k (Nat.lt_succ_of_le hk) t htk ht

/-- Every lane but `(0,0)` is filled by one of the 24 steps. -/
theorem exists_rhoPiLane_eq {j : Fin 25} (hj : j ≠ 0) : ∃ t < 24, rhoPiLane (t + 1) = j := by
  revert j
  decide

theorem rhoPiLane_ne_zero {t : Nat} (ht : t < 24) : rhoPiLane (t + 1) ≠ 0 := by
  revert t
  decide

/-- The table of R83 lists the steps of R81: where each takes its lane from, and by how much it rotates it. -/
theorem rhoPiSource_rhoPiLane {t : Nat} (ht : t < 24) :
    rhoPiSource[rhoPiLane (t + 1)] = (rhoPiLane t, rhoAmount t) := by
  revert t
  decide

/-- The recurrence at step `t`, on its own path. -/
theorem rhoPiFrom_succ (A B : Lanes) (n t : Nat) :
    rhoPiFrom A (n + 1) t (rhoPiCoord t).1 (rhoPiCoord t).2 B =
      rhoPiFrom A n (t + 1) (rhoPiCoord (t + 1)).1 (rhoPiCoord (t + 1)).2
        (B.set (rhoPiLane (t + 1)) (rotl64 A[rhoPiLane t] (rhoAmount t))) := rfl

theorem rhoPiChain_succ (S : Lanes) (cur : Word) (n t : Nat) :
    rhoPiChain (n + 1) t (rhoPiCoord t).1 (rhoPiCoord t).2 cur S =
      rhoPiChain n (t + 1) (rhoPiCoord (t + 1)).1 (rhoPiCoord (t + 1)).2 S[rhoPiLane (t + 1)]
        (S.set (rhoPiLane (t + 1)) (rotl64 cur (rhoAmount t))) := rfl

theorem getElem_set_lane_ne (B : Lanes) (v : Word) {j k : Fin 25} (h : k ≠ j) : (B.set k v)[j] = B[j] :=
  Vector.getElem_set_ne k.isLt j.isLt fun hkj => h (Fin.ext hkj)

theorem getElem_set_lane_self (B : Lanes) (v : Word) (j : Fin 25) : (B.set j v)[j] = v :=
  Vector.getElem_set_self j.isLt

/-- A lane no remaining step fills stays as it is. -/
theorem getElem_rhoPiFrom_untouched (A : Lanes) {j : Fin 25} (n t : Nat) (B : Lanes)
    (hj : ∀ k, t ≤ k → k < t + n → rhoPiLane (k + 1) ≠ j) :
    (rhoPiFrom A n t (rhoPiCoord t).1 (rhoPiCoord t).2 B)[j] = B[j] := by
  induction n generalizing t B with
  | zero => rfl
  | succ n ih =>
    rw [rhoPiFrom_succ, ih (t + 1) _ fun k hk hkn => hj k (by omega) (by omega),
      getElem_set_lane_ne _ _ (hj t (by omega) (by omega))]

/-- Step `k` places its lane, and no later step moves it again. -/
theorem getElem_rhoPiFrom_placed (A : Lanes) {k : Nat} (n t : Nat) (B : Lanes) (htk : t ≤ k) (hk : k < t + n)
    (hn : t + n ≤ 24) : (rhoPiFrom A n t (rhoPiCoord t).1 (rhoPiCoord t).2 B)[rhoPiLane (k + 1)] =
      rotl64 A[rhoPiLane k] (rhoAmount k) := by
  induction n generalizing t B with
  | zero => omega
  | succ n ih =>
    rw [rhoPiFrom_succ]
    obtain rfl | hlt := Nat.eq_or_lt_of_le htk
    · rw [getElem_rhoPiFrom_untouched A n (t + 1) _ fun m hm hmn =>
        (rhoPiLane_ne (by omega) (by omega) (by omega)).symm, getElem_set_lane_self]
    · exact ih (t + 1) _ hlt (by omega) (by omega)

theorem getElem_rhoPi_zero (A : Lanes) : (rhoPi A)[(0 : Fin 25)] = A[(0 : Fin 25)] :=
  getElem_rhoPiFrom_untouched A 24 0 A fun _ _ hk => rhoPiLane_ne_zero (by omega)

theorem getElem_rhoPi_rhoPiLane (A : Lanes) {t : Nat} (ht : t < 24) :
    (rhoPi A)[rhoPiLane (t + 1)] = rotl64 A[rhoPiLane t] (rhoAmount t) :=
  getElem_rhoPiFrom_placed A 24 0 A (Nat.zero_le t) (by omega) (by omega)

/-- R83, the third table: lane `j` takes lane `i`, rotated by `n`. -/
theorem getElem_rhoPi_of_source (A : Lanes) {i j : Fin 25} {n : Nat} (h : rhoPiSource[j] = (i, n)) :
    (rhoPi A)[j] = rotl64 A[i] n := by
  by_cases hj : j = 0
  · subst hj
    cases h
    exact getElem_rhoPi_zero A
  · obtain ⟨t, ht, rfl⟩ := exists_rhoPiLane_eq hj
    cases (rhoPiSource_rhoPiLane ht).symm.trans h
    exact getElem_rhoPi_rhoPiLane A ht

/-- R83 by source coordinate. -/
theorem rhoPiSource_laneAt (x y : Fin 5) : ∃ n, n ≤ 62 ∧ (n = 0 ↔ x = 0 ∧ y = 0) ∧
    rhoPiSource[laneAt y (2 * x + 3 * y)] = (laneAt x y, n) := by
  have hall : ∀ x y : Fin 5, (rhoPiSource[laneAt y (2 * x + 3 * y)]).2 ≤ 62 ∧
      ((rhoPiSource[laneAt y (2 * x + 3 * y)]).2 = 0 ↔ x = 0 ∧ y = 0) ∧
      (rhoPiSource[laneAt y (2 * x + 3 * y)]).1 = laneAt x y := by decide
  obtain ⟨hle, hzero, hlane⟩ := hall x y
  exact ⟨_, hle, hzero, Prod.ext hlane rfl⟩

/-- Settles O16: each of the 24 steps fills a lane of its own, from the source and by the amount of the table. -/
theorem rhoPiAgreesWithItsTables : Obligations.RhoPiAgreesWithItsTables := by
  refine ⟨fun A j => getElem_rhoPi_of_source A rfl, fun A x y => ?_, getElem_rhoPi_zero⟩
  obtain ⟨n, hle, hzero, hsource⟩ := rhoPiSource_laneAt x y
  exact ⟨n, hle, hzero, hsource, getElem_rhoPi_of_source A hsource⟩

/-- As long as the spare lane is the old lane of step `t` and the lanes still to be filled are old, the chain does
what the recurrence does. -/
theorem rhoPiChain_eq_rhoPiFrom (A : Lanes) (n t : Nat) (S : Lanes) (hn : t + n ≤ 24)
    (hold : ∀ k, t < k → k ≤ t + n → S[rhoPiLane k] = A[rhoPiLane k]) :
    rhoPiChain n t (rhoPiCoord t).1 (rhoPiCoord t).2 A[rhoPiLane t] S =
      rhoPiFrom A n t (rhoPiCoord t).1 (rhoPiCoord t).2 S := by
  induction n generalizing t S with
  | zero => rfl
  | succ n ih =>
    rw [rhoPiChain_succ, rhoPiFrom_succ, hold (t + 1) (by omega) (by omega)]
    refine ih (t + 1) _ (by omega) fun k hk hkn => ?_
    rw [getElem_set_lane_ne _ _ (rhoPiLane_ne hk (by omega) (by omega)), hold k (by omega) (by omega)]

/-- Settles O17: a step overwrites only a lane whose old value the spare lane has taken up. -/
theorem inPlaceRhoPiAgrees : Obligations.InPlaceRhoPiAgrees :=
  fun S => rhoPiChain_eq_rhoPiFrom S 24 0 S (by decide) fun _ _ _ => rfl

/-! ### Chi -/

theorem getElem_chi (A : Lanes) (x y : Fin 5) : (chi A)[laneAt x y] =
    A[laneAt x y] ^^^ (~~~A[laneAt (x + 1) y] &&& A[laneAt (x + 2) y]) := by
  simp only [chi, Fin.getElem_fin, Vector.getElem_ofFn, Fin.eta, laneX_laneAt, laneY_laneAt]

theorem getElem_chi_of_row_equal {A : Lanes} {y : Fin 5} {v : Word} (h : ∀ x, A[laneAt x y] = v) (x : Fin 5) :
    (chi A)[laneAt x y] = v := by
  rw [getElem_chi, h, h, h, BitVec.not_and_self]
  exact BitVec.xor_zero

theorem chi_replicate (v : Word) : chi (Vector.replicate 25 v) = Vector.replicate 25 v :=
  lanes_ext fun x y => by
    rw [getElem_chi_of_row_equal fun x => getElem_replicate_lane v (laneAt x y), getElem_replicate_lane]

/-- A row's only lane `k` stays, and shows again in lane `k - 2`, whose lane between is zero. -/
theorem getElem_chi_of_row_single {A : Lanes} {y k : Fin 5} {v : Word} (hk : A[laneAt k y] = v)
    (h0 : ∀ x, x ≠ k → A[laneAt x y] = 0) (x : Fin 5) :
    (chi A)[laneAt x y] = if x = k ∨ x = k - 2 then v else 0 := by
  rw [getElem_chi]
  by_cases hx : x = k
  · subst hx
    have h2 : x + 2 ≠ x := by simp
    rw [hk, h0 _ h2, if_pos (.inl rfl)]
    simp
  · by_cases hx2 : x = k - 2
    · subst hx2
      have h1 : k - 2 + 1 ≠ k := (by decide : ∀ k : Fin 5, k - 2 + 1 ≠ k) k
      have h2 : A[laneAt (k - 2 + 2) y] = v := by simpa only [sub_add_cancel] using hk
      rw [h0 _ hx, h0 _ h1, h2, if_pos (.inr rfl)]
      exact BitVec.zero_xor.trans BitVec.allOnes_and
    · have h2 : x + 2 ≠ k := fun h => hx2 (eq_sub_of_add_eq h)
      rw [h0 _ hx, h0 _ h2, if_neg (by simp [hx, hx2])]
      simp

/-- Settles O18: lane by lane; rows of equal lanes make the two constant states fixed points. -/
theorem chiMixesEachRowFromItsSnapshot : Obligations.ChiMixesEachRowFromItsSnapshot := by
  refine ⟨getElem_chi, fun A y v => getElem_chi_of_row_equal, fun A y k v => getElem_chi_of_row_single,
    chi_replicate _, chi_replicate _, fun A h0 h1 h2 h3 h4 => ?_⟩
  simp only [getElem_chi, Fin.reduceAdd, h0, h1, h2, h3, h4]
  decide

/-! ### Iota and the round constants -/

theorem getElem_iota_zero (rnd : Fin 24) (A : Lanes) :
    (iota rnd A)[(0 : Fin 25)] = A[(0 : Fin 25)] ^^^ roundConstants[rnd] :=
  getElem_set_lane_self A _ 0

theorem getElem_iota_ne (rnd : Fin 24) (A : Lanes) {j : Fin 25} (hj : j ≠ 0) : (iota rnd A)[j] = A[j] :=
  getElem_set_lane_ne A _ hj.symm

/-- Settles O19: `iota` sets lane 0; the examples take the constants of rounds 0 and 1. -/
theorem iotaTouchesLaneZeroOnly : Obligations.IotaTouchesLaneZeroOnly := by
  refine ⟨fun rnd A => ⟨getElem_iota_zero rnd A, fun j => getElem_iota_ne rnd A⟩, by decide, fun A h => ?_⟩
  rw [getElem_iota_zero, h]
  decide

/-- Settles O20: the register is run for each of the 24 rounds. -/
theorem roundConstantsFollowTheRegister : Obligations.RoundConstantsFollowTheRegister :=
  ⟨by decide, by decide, by decide⟩

/-! ### The permutation -/

/-- The state after rounds `0` to `n - 1`. -/
def keccakRounds (A : Lanes) (n : Nat) : Lanes :=
  ((List.finRange 24).take n).foldl (fun S rnd => keccakRound rnd S) A

theorem keccakRounds_succ (A : Lanes) (rnd : Fin 24) :
    keccakRounds A (rnd.val + 1) = keccakRound rnd (keccakRounds A rnd.val) := by
  have hrnd : (List.finRange 24).take (rnd.val + 1) = (List.finRange 24).take rnd.val ++ [rnd] := by
    simp [List.take_add_one]
  rw [keccakRounds, hrnd, List.foldl_append]
  rfl

theorem keccakF_eq_keccakRounds (A : Lanes) : keccakF A = keccakRounds A 24 := by
  rw [keccakRounds, List.take_of_length_le (by simp), keccakF]

/-- T6: three lanes of the permutation of the zero state, by evaluation. -/
theorem keccakF_zero : (keccakF (Vector.replicate 25 0))[0] = 0xF1258F7940E1DDE7 ∧
    (keccakF (Vector.replicate 25 0))[1] = 0x84D5CCF933C0478A ∧
    (keccakF (Vector.replicate 25 0))[24] = 0xEAF1FF7B5CECA249 := by
  decide +kernel

/-- Settles O21: the fold of R88, cut off after each round, is the sequence of states. -/
theorem permutationIsTwentyFourAscendingRounds : Obligations.PermutationIsTwentyFourAscendingRounds :=
  ⟨fun A => ⟨keccakRounds A, rfl, keccakRounds_succ A, keccakF_eq_keccakRounds A⟩, keccakF_zero⟩

end Sys2Proof.Machine
end

section
/-! `PERMUTE` (R89): what it leaves in its engine, with every lane specified and with some lane unspecified. -/

namespace Sys2Proof.Machine

theorem Engine.permuted_of_not_allSpecified {e : Engine} (h : e.allSpecified = false) (n : Nat) (j : Fin 25) :
    (e.permuted n).specified[j] = false := by
  simp [Engine.permuted, h, Engine.unspecifyLanes]

/-- What `PERMUTE` does to the machine, whatever the lanes: it completes with one response without data and changes at
most its engine, whose scratch buffer stays. -/
theorem exec_permute {s : State} {e : Engine} (he : s.engine? = some e) :
    ∃ t, exec .permute s = .next t ∧ t.engine? = some { e.permuted s.draws with inFlight := none } ∧
      (e.permuted s.draws).scr = e.scr ∧ t.responses = s.responses ++ [⟨s.active, none⟩] ∧
      OutsideKept s t ∧ MemoryKept s t := by
  have hx : exec .permute s = .next _ := execPermute_some he
  exact ⟨_, hx, engine?_respond (s := s.drawn) none he, Engine.permuted_scr s.draws e, rfl, exec_outsideKept hx,
    exec_memoryKept (by simp) hx⟩

/-- Settles O22: with every lane specified the engine holds the permuted lanes. -/
theorem permuteAppliesThePermutation : Obligations.PermuteAppliesThePermutation := by
  intro s e he hspec
  obtain ⟨t, hx, he', hscr, hresp, hout, hmem⟩ := exec_permute he
  obtain ⟨hlanes, hspec'⟩ := Engine.permuted_of_allSpecified (Engine.allSpecified_iff.mpr hspec) s.draws
  exact ⟨t, _, hx, he', hlanes, hspec', hscr, rfl, hresp, hout, hmem⟩

/-- Settles O23: with some lane unspecified the engine gives up all of them. -/
theorem permuteOfUnspecifiedLanesIsUnspecified : Obligations.PermuteOfUnspecifiedLanesIsUnspecified := by
  rintro s e he ⟨j, hj⟩
  obtain ⟨t, hx, he', hscr, hresp, hout, hmem⟩ := exec_permute he
  have hnot : e.allSpecified = false := by
    rw [Bool.eq_false_iff, Ne, Engine.allSpecified_iff]
    exact fun hall => by simp [hall j] at hj
  exact ⟨t, _, hx, he', Engine.permuted_of_not_allSpecified hnot s.draws, hscr, rfl, hresp, hout, hmem⟩

end Sys2Proof.Machine
end

section
/-! The internal operations of `HASH`: absorbing, the full-block loop, the final block, squeezing (R101 to R106). -/

namespace Sys2Proof.Machine

/-! ### Absorbing -/

theorem extractLsb'_load64le (b : Vector Byte 8) {k : Nat} (hk : k < 8) : (load64le b).extractLsb' (8 * k) 8 = b[k] := by
  simp only [← getElem_store64le _ hk, store64le_load64le]

theorem extractLsb'_blockWord (P : Scratch) (i : Fin 17) {k : Nat} (hk : k < 8) :
    (blockWord P i).extractLsb' (8 * k) 8 = P[8 * i.val + k] := by
  simp [blockWord, extractLsb'_load64le, hk]

theorem getElem_absorbBlock_rate (A : Lanes) (P : Scratch) {i : Nat} (hi : i < 17) :
    (absorbBlock A P)[i] = A[i] ^^^ blockWord P ⟨i, hi⟩ := by
  simp [absorbBlock, hi]

theorem getElem_absorbBlock_capacity (A : Lanes) (P : Scratch) {i : Nat} (hi : 17 ≤ i) (hi' : i < 25) :
    (absorbBlock A P)[i] = A[i] := by
  simp [absorbBlock, Nat.not_lt.mpr hi]

/-- State byte `j` takes block byte `j`: both are byte `j mod 8` of word `j div 8` (R15, R31). -/
theorem stateByte_absorbBlock (A : Lanes) (P : Scratch) (j : Fin 200) : stateByte (absorbBlock A P) j =
    if h : j.val < 136 then stateByte A j ^^^ P[j.val] else stateByte A j := by
  unfold stateByte
  split
  · next hrate =>
    have hplace : 8 * (j.val / 8) + j.val % 8 = j.val := Nat.div_add_mod j.val 8
    rw [getElem_absorbBlock_rate A P (by omega), BitVec.extractLsb'_xor,
      extractLsb'_blockWord P ⟨j.val / 8, by omega⟩ (Nat.mod_lt _ (by decide))]
    simp only [hplace]
  · next hcap => rw [getElem_absorbBlock_capacity A P (by omega)]

theorem blockWord_replicate (v : Byte) (i : Fin 17) :
    blockWord (Vector.replicate 136 v) i = load64le (Vector.replicate 8 v) := by
  refine congrArg load64le (Vector.ext fun k hk => ?_)
  simp

theorem memRead_of_constant {a n : Nat} {v : Byte} {s : State} (h : ∀ j, j < n → s.mem.read (a + j) = v) :
    (memRead a n s).1 = Vector.replicate n v := by
  refine Vector.ext fun k hk => ?_
  simp [memRead_fst, h k hk]

/-- Absorbing 136 equal bytes XORs one word into each lane of the rate. -/
theorem getElem_absorbMem_of_constant {a : Nat} {v : Byte} {s : State} (h : ∀ j, j < 136 → s.mem.read (a + j) = v)
    (A : Lanes) (i : Fin 25) :
    (absorbMem a A s).1[i] = if i.val < 17 then A[i] ^^^ load64le (Vector.replicate 8 v) else A[i] := by
  rw [absorbMem, memRead_of_constant h]
  split
  · next hrate => exact (getElem_absorbBlock_rate A _ hrate).trans (by rw [blockWord_replicate]; rfl)
  · next hcap => exact getElem_absorbBlock_capacity A _ (Nat.not_lt.mp hcap) i.isLt

/-- Settles O28: by the bytes of the XORed words; in the examples all bytes of the block are equal. -/
theorem absorbXorsEachByteIntoTheRate : Obligations.AbsorbXorsEachByteIntoTheRate := by
  refine ⟨fun a A s => ⟨fun j => ?_, fun i hi => getElem_absorbBlock_capacity A _ hi i.isLt, rfl, fun hzero => ?_⟩,
    fun a s h i => ?_⟩
  · rw [absorbMem, stateByte_absorbBlock]
    simp [memRead_fst]
  · refine Vector.ext fun i hi => (getElem_absorbMem_of_constant hzero A ⟨i, hi⟩).trans ?_
    have hword : load64le (Vector.replicate 8 0) = 0 := by decide
    rw [hword]
    simp
  · have hword : load64le (Vector.replicate 8 0x61) = 0x6161616161616161 := by decide
    rw [getElem_absorbMem_of_constant h, hword, initLanes, getElem_replicate_lane]
    simp

/-! ### The full-block loop -/

theorem absorbOne_rem (p : Absorbing) : (absorbOne p).rem = p.rem - 136 := rfl

theorem absorbOne_cur (p : Absorbing) : (absorbOne p).cur = p.cur + 136 := rfl

/-- The loop does not stop early, and given enough fuel it does not stop for want of it. -/
theorem absorbLoop_eq_iterate {n : Nat} {p : Absorbing} (h : p.rem / 136 ≤ n) :
    absorbLoop n p = absorbOne^[p.rem / 136] p := by
  induction n generalizing p with
  | zero => rw [Nat.le_zero.mp h]; rfl
  | succ n ih =>
    rw [absorbLoop]
    split
    · next hfull =>
      have hcount : p.rem / 136 = (absorbOne p).rem / 136 + 1 := by
        rw [absorbOne_rem]
        omega
      rw [ih (by omega), hcount, Function.iterate_succ_apply]
    · next hdone =>
      rw [Nat.div_eq_of_lt (Nat.not_le.mp hdone)]
      rfl

theorem iterate_absorbOne (q : Nat) (p : Absorbing) :
    (absorbOne^[q] p).rem = p.rem - 136 * q ∧ (absorbOne^[q] p).cur = p.cur + 136 * q := by
  induction q with
  | zero => exact ⟨rfl, rfl⟩
  | succ q ih =>
    obtain ⟨hrem, hcur⟩ := ih
    rw [Function.iterate_succ_apply', absorbOne_rem, absorbOne_cur]
    omega

/-- Settles O29: the loop is an iterate of its body, and each iteration moves the cursor by one block. -/
theorem fullBlockLoopRunsLenDiv136Times : Obligations.FullBlockLoopRunsLenDiv136Times := by
  intro a l A s
  have hloop : absorbLoop l ⟨a, l, A, s⟩ = absorbOne^[l / 136] ⟨a, l, A, s⟩ :=
    absorbLoop_eq_iterate (Nat.div_le_self l 136)
  obtain ⟨hrem, hcur⟩ := iterate_absorbOne (l / 136) ⟨a, l, A, s⟩
  rw [hloop, hrem, Nat.mod_eq_sub]
  exact ⟨rfl, rfl, hcur⟩

/-! ### The final block -/

theorem getElem_fill (a r : Nat) (s : State) (k : Fin 136) :
    (fill a r s).1[k] = if k.val < r then s.mem.read (a + k.val) else 0 := by
  simp [fill, memRead_fst]

/-- R104: where the OR meets the assigned byte it gives `0x81`. -/
theorem getElem_pad (r : Nat) (P : Scratch) (k : Fin 136) : (pad r P)[k] =
    if k.val = r then (if r = 135 then 0x81 else 0x01) else if k.val = 135 then P[k] ||| padLast else P[k] := by
  by_cases hr : k.val = r
  · by_cases hlast : k.val = 135
    · simp [pad, ← hr, hlast, padFirst, padLast]
    · simp [pad, ← hr, hlast, Ne.symm hlast, padFirst]
  · by_cases hlast : k.val = 135
    · have hr' : r ≠ 135 := fun h => hr (hlast.trans h.symm)
      simp [pad, hlast, hr', hr'.symm]
    · simp [pad, Vector.getElem_setIfInBounds, hr, hlast, Ne.symm hlast, Ne.symm hr]

/-- Settles O30: the tail ends below `r`, so padding meets zeros only. -/
theorem finalBlockIsTailThenPadding : Obligations.FinalBlockIsTailThenPadding := by
  intro a r s hr
  refine ⟨rfl, getElem_fill a r s, fun k => ?_⟩
  rw [getElem_pad, getElem_fill]
  by_cases htail : k.val < r
  · have hr' : k.val ≠ r := by omega
    have hlast : k.val ≠ 135 := by omega
    simp only [htail, hr', hlast, if_true, if_false]
  · have hor : (0 : Byte) ||| padLast = 0x80 := by decide
    simp only [htail, if_false, hor]

/-! ### Squeezing -/

/-- The first 32 state bytes (R15). -/
def digestVector (A : Lanes) : Vector Byte 32 := Vector.ofFn fun j => stateByte A ⟨j.val, by omega⟩

theorem digestBytes_eq_digestVector (A : Lanes) : digestBytes A = (digestVector A).toList := by
  simp [digestBytes, digestVector, store64le, stateByte, Vector.toList_ofFn, List.ofFn_succ]

theorem getElem_digestVector (A : Lanes) (j : Fin 32) : (digestVector A)[j] = stateByte A ⟨j.val, by omega⟩ := by
  simp [digestVector]

theorem squeeze_eq_memWrite (a : Nat) (A : Lanes) (s : State) :
    squeeze a A s = memWrite a (digestVector A).toList s := by
  rw [squeeze, digestBytes_eq_digestVector]

theorem read_squeeze {s : State} (hs : s.mem.wf) (a : Nat) (A : Lanes) (j : Fin 32) :
    (squeeze a A s).mem.read (a + j.val) = stateByte A ⟨j.val, by omega⟩ := by
  rw [squeeze_eq_memWrite, read_memWrite hs, getElem_digestVector]

theorem read_squeeze_outside (A : Lanes) (s : State) {a b : Nat} (hb : b < a ∨ a + 32 ≤ b) :
    (squeeze a A s).mem.read b = s.mem.read b := by
  rw [squeeze_eq, State.logBus_mem, State.withMem_mem, Memory.read_writeBytes_outside]
  rwa [length_digestBytes]

theorem squeeze_bus (a : Nat) (A : Lanes) (s : State) : (squeeze a A s).bus =
    s.bus ++ (List.finRange 32).map fun j => .write s.active (a + j.val) (stateByte A ⟨j.val, by omega⟩) := by
  simp only [squeeze_eq_memWrite, memWrite_bus, getElem_digestVector]

theorem squeeze_engines (a : Nat) (A : Lanes) (s : State) : (squeeze a A s).engines = s.engines := by
  rw [squeeze_eq, State.logBus_engines, State.withMem_engines]

/-- Settles O31: the digest is the first 32 state bytes; the example takes those of lane 0. -/
theorem squeezeWritesTheFirst32StateBytes : Obligations.SqueezeWritesTheFirst32StateBytes := by
  refine ⟨fun a A s hs => ⟨read_squeeze hs a A, fun b => read_squeeze_outside A s, squeeze_bus a A s,
    squeeze_engines a A s⟩, fun a A s hs hlane => ?_⟩
  have hbytes : (squeeze a A s).mem.bytes a 8 = (store64le A[0]).toList := by
    refine List.ext_getElem (by simp) fun k hk hk' => ?_
    have hk8 : k < 8 := by simpa using hk
    have hread := read_squeeze hs a A ⟨k, by omega⟩
    simpa [Memory.bytes, stateByte, Nat.mod_eq_of_lt hk8, Nat.div_eq_of_lt hk8] using hread
  rw [hbytes, hlane]
  decide

end Sys2Proof.Machine
end

section
/-! `HASH` (R109 to R111): it runs exactly under its contract, and it stores the digest. -/

namespace Sys2Proof.Machine

theorem keccak256_empty : keccak256 [] =
    [0xc5, 0xd2, 0x46, 0x01, 0x86, 0xf7, 0x23, 0x3c, 0x92, 0x7e, 0x7d, 0xb2, 0xdc, 0xc7, 0x03, 0xc0,
     0xe5, 0x00, 0xb6, 0x53, 0xca, 0x82, 0x27, 0x3b, 0x7b, 0xfa, 0xd8, 0x04, 0x5d, 0x85, 0xa4, 0x70] := by
  decide +kernel

/-- Settles O32: both hashes by evaluation. -/
theorem knownAnswersComeOut : Obligations.KnownAnswersComeOut :=
  ⟨keccak256_empty, by decide +kernel⟩

theorem exec_hash_outside_contract {s : State} {e : Engine} {a l o : Word} (he : s.engine? = some e)
    (hw : (Instr.hash a l o).wf s.plat.aw = true) (h : ¬ HashContract s a l o) :
    ∃ v, exec (.hash a l o) s = .refused (.contractViolation v) := by
  rw [hashContract_iff] at h
  obtain ⟨v, hv⟩ := Option.ne_none_iff_exists'.mp h
  exact ⟨v, by simp [exec, execHash, onEngine_some he, hw, hv]⟩

/-- Settles O33: the machine's verdict on the contract is the contract. -/
theorem hashRunsExactlyUnderItsContract : Obligations.HashRunsExactlyUnderItsContract := fun _ _ _ _ _ he hw =>
  ⟨fun h => exec_completes he hw (hashContract_iff.mp h), exec_hash_outside_contract he hw⟩

/-- The engine and the response after a `HASH` (R13, R57). -/
theorem execHash_engine {s t : State} {a l o : Word} (h : exec (.hash a l o) s = .next t) :
    ∃ e, t.engine? = some e ∧ (∀ j : Fin 25, e.specified[j] = false) ∧ e.inFlight = none ∧
      t.responses = s.responses ++ [⟨s.active, none⟩] := by
  obtain ⟨e, he, -, -, rfl⟩ := execHash_next h
  rw [hashSteps_eq_keccak256]
  generalize keccak256 (s.mem.bytes a.toNat l.toNat) = digest
  exact ⟨_, engine?_respond none he, Engine.discarded_specified s.draws e, rfl, rfl⟩

theorem encode_hash (a l o : Word) : encode (.hash a l o) = descriptor 0x01 a l o := by
  have hheader : header 0x01 0 = 0x01 := by decide
  rw [encode, hheader]

/-- Settles O34: the closed form of the hash computation stores the digest in memory in canonical form. -/
theorem hashStoresTheDigestOfTheInput : Obligations.HashStoresTheDigestOfTheInput := by
  refine ⟨fun s e a l o he hm hw => ⟨fun hc => ?_, exec_hash_outside_contract he hw⟩, encode_hash, keccak256_empty⟩
  obtain ⟨t, ht⟩ := exec_completes he hw (hashContract_iff.mp hc)
  obtain ⟨e', he', hunspec, hidle, hresp⟩ := execHash_engine ht
  obtain ⟨hmem, hbus⟩ := execHash_memory ht
  obtain ⟨digest, hdigest⟩ := exists_digest_vector (s.mem.bytes a.toNat l.toNat)
  have hlen : digest.toList.length = 32 := Vector.length_toList
  rw [hdigest] at hmem
  rw [hdigest, writesOf_eq_finRange, ← List.append_assoc] at hbus
  refine ⟨t, e', digest, ht, he', hdigest, fun j => ?_, fun b hb => ?_, hbus, hunspec, hidle, hresp,
    exec_outsideKept ht⟩
  · rw [hmem, Memory.read_writeBytes_inside hm (hlen.symm ▸ j.isLt)]
    simp
  · rw [hmem, Memory.read_writeBytes_outside s.mem (by rwa [hlen])]

end Sys2Proof.Machine
end

section
/-! `WRLANE` and `RDLANE` (R120, R121): one lane written, one lane or a free draw in the response. -/

namespace Sys2Proof.Machine

section
variable {s : State} {e : Engine} {i : BitVec 5}

/-! ### `WRLANE` -/

theorem exec_wrlane_some (he : s.engine? = some e) (hi : i.toNat < 25) (v : Word) :
    exec (.wrlane i v) s = .next (s.respond (e.writeLane ⟨i.toNat, hi⟩ v) none) := by
  simp only [exec, execWrlane, onEngine_some he, onLane_lt hi]

theorem exec_wrlane_reserved (he : s.engine? = some e) (hi : 25 ≤ i.toNat) (v : Word) :
    exec (.wrlane i v) s = .refused (.reserved .laneIndex) := by
  simp only [exec, execWrlane, onEngine_some he, onLane_ge hi]

theorem Engine.writeLane_same (e : Engine) (j : Fin 25) (v : Word) :
    (e.writeLane j v).lanes[j] = v ∧ (e.writeLane j v).specified[j] = true := by
  simp [Engine.writeLane]

theorem Engine.writeLane_ne (e : Engine) (j : Fin 25) (v : Word) {k : Fin 25} (h : k.val ≠ j.val) :
    (e.writeLane j v).lanes[k] = e.lanes[k] ∧ (e.writeLane j v).specified[k] = e.specified[k] := by
  simp [Engine.writeLane, Vector.getElem_set_ne, h.symm]

/-- Of two writes to one lane the last stays. -/
theorem Engine.writeLane_writeLane (e : Engine) (j : Fin 25) (v w : Word) :
    (e.writeLane j v).writeLane j w = e.writeLane j w := by
  simp [Engine.writeLane]

/-! ### `RDLANE` -/

theorem exec_rdlane_specified (he : s.engine? = some e) (hi : i.toNat < 25) (hspec : e.specified[i.toNat] = true) :
    exec (.rdlane i) s = .next (s.respond e (some e.lanes[i.toNat])) := by
  simp [exec, execRdlane, onEngine_some he, onLane_lt hi, hspec]

theorem exec_rdlane_reserved (he : s.engine? = some e) (hi : 25 ≤ i.toNat) :
    exec (.rdlane i) s = .refused (.reserved .laneIndex) := by
  simp only [exec, execRdlane, onEngine_some he, onLane_ge hi]

/-- Reading a lane just written answers what was written and leaves the engine as the write left it. -/
theorem execSeq_wrlane_rdlane (he : s.engine? = some e) (hi : i.toNat < 25) (v : Word) :
    ∃ t, execSeq [.wrlane i v, .rdlane i] s = .next t ∧
      t.engine? = some { e.writeLane ⟨i.toNat, hi⟩ v with inFlight := none } ∧
      t.responses.getLast? = some ⟨s.active, some v⟩ := by
  obtain ⟨hlane, hspec⟩ := e.writeLane_same ⟨i.toNat, hi⟩ v
  have he₁ := engine?_respond (e' := e.writeLane ⟨i.toNat, hi⟩ v) none he
  have hread := exec_rdlane_specified he₁ hi hspec
  refine ⟨_, (execSeq_cons (exec_wrlane_some he hi v)).trans (execSeq_cons hread), engine?_respond _ he₁, ?_⟩
  rw [State.respond_responses, List.getLast?_concat, State.respond_active]
  exact congrArg (fun x : Word => some (Response.mk s.active (some x))) hlane

end

/-- Settles O24: the response of the engine with one lane written; a second write to it overwrites the first. -/
theorem wrlaneWritesOneLane : Obligations.WrlaneWritesOneLane := by
  refine ⟨fun s e i v he => ⟨fun hi => ?_, fun hi => exec_wrlane_reserved he hi v⟩, fun s e i v w he hi => ?_⟩
  · have hx := exec_wrlane_some he hi v
    obtain ⟨hlane, hspec⟩ := e.writeLane_same ⟨i.toNat, hi⟩ v
    exact ⟨_, _, hx, engine?_respond none he, hlane, hspec, fun _ => e.writeLane_ne ⟨i.toNat, hi⟩ v, rfl, rfl, rfl, rfl,
      rfl, exec_outsideKept hx, exec_memoryKept (by simp) hx⟩
  · have he₁ := engine?_respond (e' := e.writeLane ⟨i.toNat, hi⟩ v) none he
    obtain ⟨t, hseq, het, hresp⟩ := execSeq_wrlane_rdlane he₁ hi w
    refine ⟨t, _, (execSeq_cons (exec_wrlane_some he hi v)).trans hseq, exec_wrlane_some he hi w, ?_, hresp⟩
    rw [het, engine?_respond none he, ← e.writeLane_writeLane ⟨i.toNat, hi⟩ v w]
    rfl

/-- Settles O25: a specified lane is the data of the response, and the engine is otherwise as it was. -/
theorem rdlaneRespondsWithTheLane : Obligations.RdlaneRespondsWithTheLane := by
  refine fun s e i he => ⟨fun hi hspec => ?_, exec_rdlane_reserved he⟩
  have hx := exec_rdlane_specified he hi hspec
  exact ⟨_, hx, engine?_respond _ he, rfl, rfl, exec_outsideKept hx, exec_memoryKept (by simp) hx⟩

/-- Settles O26: whether the lane is specified decides the answer, so other bits in the lane give the same draw. -/
theorem rdlaneOfUnspecifiedLaneIsFree : Obligations.RdlaneOfUnspecifiedLaneIsFree := by
  intro s e i hi w he hunspec
  have hx := execRdlane_unspecified he hi hunspec
  have he' := engine?_setEngine (e' := { e with lanes := e.lanes.set i.toNat w }) he
  have hother := execRdlane_unspecified he' hi hunspec
  exact ⟨_, _, hx, hother, rfl, rfl, engine?_respond (s := s.drawn) _ he, rfl, exec_outsideKept hx,
    exec_memoryKept (by simp) hx⟩

end Sys2Proof.Machine
end

section
/-! Idle engines do nothing (R143, R151), no command faults, and every lawful command completes (R130, R163). -/

namespace Sys2Proof.Machine

/-! ### Idle engines -/

theorem step_of_all_idle {s : State} (hp : s.pending = []) (hidle : ∀ e ∈ s.engines, e.inFlight = none) :
    step s = .next s := by
  simp only [step, nextEvent, hp, firstBusy?_eq_none.mpr hidle]

theorem finishCommand_idle {k : Nat} {s : State} {e : Engine} (he : s.engines[k]? = some e) (hidle : e.inFlight = none) :
    finishCommand k s = .next s := by
  simp only [finishCommand, he, hidle]

/-- Settles O10: no engine is found busy, and the completion of an idle engine finds no command. -/
theorem idleInstanceKeepsItsState : Obligations.IdleInstanceKeepsItsState := by
  refine ⟨fun _ => step_of_all_idle, fun s k rest e hp he hidle => ?_⟩
  rw [step_of_pending hp]
  exact finishCommand_idle (s := s.withPending rest) he hidle

/-! ### Faults and completion -/

theorem onEngine_ne_fault {s : State} {f : Engine → Host.Outcome State Fault Refusal} {r : Fault}
    (h : ∀ e, f e ≠ .fault r) : onEngine s f ≠ .fault r := by
  unfold onEngine
  split
  · exact h _
  · nofun

theorem onLane_ne_fault {j : BitVec 5} {f : Fin 25 → Host.Outcome State Fault Refusal} {r : Fault}
    (h : ∀ i, f i ≠ .fault r) : onLane j f ≠ .fault r := by
  unfold onLane
  split
  · exact h _
  · nofun

/-- No branch of a command's meaning is a fault (R130). -/
theorem exec_ne_fault (i : Instr) (s : State) (r : Fault) : exec i s ≠ .fault r := by
  cases i with
  | hash a l o =>
    refine onEngine_ne_fault fun e => ?_
    split
    · nofun
    · split <;> nofun
  | permute => exact onEngine_ne_fault fun e => nofun
  | wrlane j v => exact onEngine_ne_fault fun e => onLane_ne_fault fun i => nofun
  | rdlane j =>
    refine onEngine_ne_fault fun e => onLane_ne_fault fun i => ?_
    split <;> nofun

/-- An accepted command has an engine and well-formed operands: it completes unless it breaks the contract. -/
theorem exec_accepted_completes {k : Nat} {d : Descriptor} {s s' : State} {i : Instr} (ha : accept k d s = .ok (i, s'))
    (hv : commandViolation? s' i = none) : ∃ t, exec i s' = .next t := by
  obtain ⟨e, he, -, hd, rfl⟩ := accept_ok ha
  exact exec_completes (engine?_withActive_setEngineAt he) (Laws.decode_wf hd) hv

/-- Settles O11: no meaning has a branch that faults, and the event of an accepted command executes it. -/
theorem acceptedCommandAlwaysCompletes : Obligations.AcceptedCommandAlwaysCompletes := by
  refine ⟨exec_ne_fault, fun s s' k d rest i hp ha hv => ?_⟩
  have hstep : step s = exec i s' := (step_of_pending hp).trans (runCommand_of_accept ha)
  rw [hstep]
  exact exec_accepted_completes ha hv

/-- One state meets all hypotheses of O11 together: after reset, a `HASH` of the empty input comes next. -/
theorem accepted_lawful_command_after_reset : ∃ s',
    (State.reset.withFetchWord 256 1).pending = [.command 0 (tableDescriptor 256 1)] ∧
      accept 0 (tableDescriptor 256 1) ((State.reset.withFetchWord 256 1).withPending []) = .ok (.hash 0 0 0, s') ∧
      commandViolation? s' (.hash 0 0 0) = none :=
  ⟨_, rfl, rfl, by decide +kernel⟩

end Sys2Proof.Machine
end

section
/-! A command and the other engines (R139, R141): it reads what they have in flight, for the contract, and nothing
else. -/

namespace Sys2Proof.Machine

theorem Engine.buffers?_congr {e f : Engine} (h : e.inFlight = f.inFlight) : e.buffers? = f.buffers? := by
  simp only [Engine.buffers?, h]

/-- The buffers of the others depend on what they have in flight only. -/
theorem buffersExcept_congr {es fs : List Engine} (h : es.map Engine.inFlight = fs.map Engine.inFlight) (k j : Nat) :
    buffersExcept k j es = buffersExcept k j fs := by
  induction es generalizing fs j with
  | nil =>
    obtain rfl : fs = [] := List.map_eq_nil_iff.mp h.symm
    rfl
  | cons e es ih =>
    obtain ⟨f, fs, rfl, hhead, htail⟩ := List.map_eq_cons_iff.mp h.symm
    simp only [buffersExcept, Engine.buffers?_congr hhead, ih htail.symm]

section
variable {s t : State} {es : List Engine} {i : Instr}

theorem othersBuffers_withEngines (h : es.map Engine.inFlight = s.engines.map Engine.inFlight) :
    State.othersBuffers { s with engines := es } = s.othersBuffers :=
  buffersExcept_congr h s.active 0

/-- A command that completes does so beside any other engines with the same commands in flight, and responds alike from the
same memory, record of accesses and engine: only the list that its engine goes back into differs. -/
theorem exec_withEngines (hx : exec i s = .next t)
    (hactive : State.engine? { s with engines := es } = s.engine?)
    (hflight : es.map Engine.inFlight = s.engines.map Engine.inFlight) :
    ∃ (m : State) (e e' : Engine) (d : Option Word), m.engine? = some e ∧
      State.engine? { m with engines := es } = some e ∧ t = m.respond e' d ∧
      exec i { s with engines := es } = .next (State.respond { m with engines := es } e' d) := by
  cases i with
  | hash a l o =>
    obtain ⟨e, he, hw, hv, rfl⟩ := execHash_next hx
    have he' := hactive.trans he
    have hv' : violation? { s with engines := es } a l o = none :=
      (violation?_congr (s := s) (t := { s with engines := es }) rfl (othersBuffers_withEngines hflight) a l o).trans hv
    have hu := execHash_some he' hw hv'
    have hm := (hashSteps_engine? a.toNat l.toNat o.toNat s).trans he
    have hm' := (hashSteps_engine? a.toNat l.toNat o.toNat { s with engines := es }).trans he'
    rw [hashSteps_withEngines] at hu hm'
    -- With a variable in its place, no comparison of fields can unfold the computation.
    generalize hashSteps a.toNat l.toNat o.toNat s = m at hu hm hm' ⊢
    exact ⟨m.drawn, e, e.discarded s.draws, none, hm, hm', rfl, hu⟩
  | permute =>
    obtain ⟨e, he, rfl⟩ := execPermute_next hx
    have he' := hactive.trans he
    exact ⟨s.drawn, e, _, _, he, he', rfl, execPermute_some he'⟩
  | wrlane j v =>
    obtain ⟨e, he, hj, rfl⟩ := execWrlane_next hx
    have he' := hactive.trans he
    exact ⟨s, e, _, _, he, he', rfl, exec_wrlane_some he' hj v⟩
  | rdlane j =>
    obtain ⟨e, he, hj, ⟨hspec, rfl⟩ | ⟨hunspec, rfl⟩⟩ := execRdlane_next hx
    all_goals have he' := hactive.trans he
    · exact ⟨s, e, _, _, he, he', rfl, exec_rdlane_specified he' hj hspec⟩
    · exact ⟨s.drawn, e, _, _, he, he', rfl, execRdlane_unspecified he' hj hunspec⟩

end

/-- Settles O41: the two runs end in one response on states that differ in the list of engines only. -/
theorem commandReadsNothingOfOtherInstances : Obligations.CommandReadsNothingOfOtherInstances := by
  intro i s t es hx _ hactive hflight
  have hmaps : es.map Engine.inFlight = s.engines.map Engine.inFlight :=
    List.ext_getElem? fun k => by rw [List.getElem?_map, List.getElem?_map, hflight]
  obtain ⟨m, e, e', d, hm, hm', rfl, hu⟩ := exec_withEngines hx hactive hmaps
  exact ⟨_, hu, rfl, rfl, rfl, (engine?_respond d hm').trans (engine?_respond d hm).symm⟩

end Sys2Proof.Machine
end

section
/-! A reset of a machine with commands in flight (R150, R151). -/

namespace Sys2Proof.Machine

/-- What a reset does: every engine is as after power-on, and the memory is unchanged outside the output buffers of the
commands it abandons; nothing else changes but the count of free draws. -/
theorem resetAll_spec (s : State) :
    ∃ m n, resetAll s = { s with engines := s.engines.map fun _ => Engine.reset, mem := m, draws := n } ∧
      ∀ a, (∀ bs ∈ s.allBuffers, bs.2.contains a = false) → m.read a = s.mem.read a := by
  obtain ⟨m, n, habandon, -, -, hread⟩ := abandonOutputs_spec s.allBuffers s
  exact ⟨m, n, by simp only [resetAll, habandon], hread⟩

/-- Settles O46: the step is `resetAll`, and by `resetAll_spec` it leaves copies of `Engine.reset` and keeps the rest. -/
theorem resetAbandonsCommandsInFlight : Obligations.ResetAbandonsCommandsInFlight := by
  intro s rest hp
  obtain ⟨m, n, hreset, hread⟩ := resetAll_spec (s.withPending rest)
  have hstep : step s = .next (resetAll (s.withPending rest)) := step_of_pending hp
  rw [hreset] at hstep
  refine ⟨_, hstep, List.length_map _, fun e he => ?_, rfl, rfl, rfl, rfl, hread⟩
  obtain ⟨_, -, rfl⟩ := List.mem_map.mp he
  exact ⟨rfl, Engine.reset_specified⟩

end Sys2Proof.Machine
end
